-- ==== Sys2Proof/Word.lean ====
section
/-! DEFINITION. The word types of the CORE (00_scope.md R7): unsigned bytes, and the 16-bit interface fields. -/

namespace Sys2Proof

/-- `Byte` of R7: an 8-bit unsigned value; its `+` wraps modulo 256 (R8). -/
abbrev Byte := BitVec 8

/-- A 16-bit interface field (R6 LEN_FIELD_WIDTH, D4). -/
abbrev Half := BitVec 16

end Sys2Proof
end

