-- ==== Sys2Proof/Config.lean ====
section
/-! DEFINITION. The CORE's fixed parameters (00_scope.md R6) and identity (R1). The two OPEN parameters are not here:
N_ENGINES is the length of the list of instances in Machine/System.lean, and port_binding has no effect on any rule. -/

namespace Sys2Proof.Config

/-- The identity string (R1, D1). -/
def identity : String := "RC4C-CORE"

/-- TABLE_SIZE: entries per permutation table (R6). -/
def tableSize : Nat := 256

/-- KEY_LEN_MIN (R6). -/
def keyLenMin : Nat := 1

/-- KEY_LEN_MAX (R6). -/
def keyLenMax : Nat := 256

/-- IV_LEN_MIN (R6). -/
def ivLenMin : Nat := 1

/-- IV_LEN_MAX (R6). -/
def ivLenMax : Nat := 256

/-- The largest count a 16-bit length field holds (R6 LEN_FIELD_WIDTH, R72). -/
def lenFieldMax : Nat := 65535

end Sys2Proof.Config
end

