-- ==== Sys2Proof/Syntax.lean ====
section
/-! DEFINITION. The commands of the CORE, one constructor per row of spec/opcode_table.json (30_encoding.md R70, R87),
and the responses it gives (R80, R81, R87). -/

namespace Sys2Proof

/-- `Cmd` of R87. -/
inductive Instr where
  /-- INIT (R100): construct the engine from a key and an IV. -/
  | init (key iv : List Byte)
  /-- XFORM (R120): transform one byte. -/
  | xform (d : Byte)
  /-- WIPE (R150): erase the engine state. -/
  | wipe
  /-- A reserved opcode byte (R83, R164). -/
  | reserved (op : Byte)
  deriving DecidableEq, Repr

/-- `Resp` of R87: what one response frame says. -/
inductive Resp where
  /-- `[00]`: INIT succeeded, or WIPE. -/
  | ok
  /-- `[00, Q]`: XFORM executed, with its output byte. -/
  | okData (q : Byte)
  /-- `[01, N]`: INVALID_KEY_SIZE (R161). -/
  | invalidKeySize (n : Half)
  /-- `[02, N]`: INVALID_IV_SIZE (R162). -/
  | invalidIvSize (n : Half)
  /-- `[03]`: NOT_READY (R163). -/
  | notReady
  /-- `[04]`: ILLEGAL_COMMAND (R164). -/
  | illegalCommand
  deriving DecidableEq, Repr

end Sys2Proof
end

