-- ==== Sys2Proof/WellFormed.lean ====
section
/-! DEFINITION. Which terms of Instr a command frame can carry (30_encoding.md R72, R83, R87). -/

namespace Sys2Proof

/-- A byte string whose length the 16-bit field can hold (R72). -/
def fitsLenField (bs : List Byte) : Bool := decide (bs.length ≤ Config.lenFieldMax)

/-- Opcode bytes 0x00 and 0x04..0xFF (R83). -/
def isReservedOpcode (op : Byte) : Bool := op != 0x01 && op != 0x02 && op != 0x03

/-- A term some frame decodes to (R87: key.length, iv.length ≤ 65535; op ∉ 01, 02, 03).
The bounds [1, 256] are the command's own check, not the frame's (R88). -/
def Instr.wf : Instr → Bool
  | .init key iv => fitsLenField key && fitsLenField iv
  | .xform _ => true
  | .wipe => true
  | .reserved op => isReservedOpcode op

end Sys2Proof
end

