-- ==== Sys2Proof/Decode.lean ====
section
/-! DEFINITION. The frame decoder, total on any byte stream (30_encoding.md R71 to R79, R88), the encoder written from
the same tables, the response encoding (R80), and the host's view of an opcode-table word. -/

namespace Sys2Proof

/-- Why the decoder gives no command (R79, R88). -/
inductive FrameFault where
  /-- No byte of a frame has arrived. -/
  | empty
  /-- A frame has begun and its remaining bytes have not arrived. -/
  | incomplete
  deriving DecidableEq, Repr

/-- Byte 0 of a 16-bit field is bits [7:0] and byte 1 is bits [15:8] (R76). -/
def ofLe16 (lo hi : Byte) : Nat := lo.toNat + 256 * hi.toNat

/-- The two bytes of a 16-bit count, low byte first (R76). -/
def le16 (n : Nat) : List Byte := [BitVec.ofNat 8 n, BitVec.ofNat 8 (n / 256)]

/-- A length field and exactly that many bytes after it: KL and KEY, or VL and IV (R73, R74). -/
def takeField : List Byte → Except FrameFault (List Byte × List Byte)
  | lo :: hi :: bs =>
    if ofLe16 lo hi ≤ bs.length then .ok (bs.take (ofLe16 lo hi), bs.drop (ofLe16 lo hi)) else .error .incomplete
  | _ => .error .incomplete

/-- Format F-INIT after its opcode byte (R72). -/
def decodeInit (bs : List Byte) : Except FrameFault (Instr × List Byte) :=
  match takeField bs with
  | .error e => .error e
  | .ok (key, bs') =>
    match takeField bs' with
    | .error e => .error e
    | .ok (iv, rest) => .ok (.init key iv, rest)

/-- Format F-DATA after its opcode byte (R78). -/
def decodeData : List Byte → Except FrameFault (Instr × List Byte)
  | d :: rest => .ok (.xform d, rest)
  | [] => .error .incomplete

/-- The first complete frame of a byte stream, as a command, with the bytes after it (R71, R88). -/
def decodeFrame : List Byte → Except FrameFault (Instr × List Byte)
  | [] => .error .empty
  | op :: bs =>
    if op = 0x01 then decodeInit bs
    else if op = 0x02 then decodeData bs
    else if op = 0x03 then .ok (.wipe, bs)
    else .ok (.reserved op, bs)

/-- The whole stream as commands and the leftover of at most one incomplete frame (R88). `fuel` bounds the frames
read; every frame has at least one byte, so the stream's own length always suffices. -/
def decodeStreamFuel : Nat → List Byte → List Instr × List Byte
  | 0, bs => ([], bs)
  | fuel + 1, bs =>
    match decodeFrame bs with
    | .error _ => ([], bs)
    | .ok (i, rest) => (i :: (decodeStreamFuel fuel rest).1, (decodeStreamFuel fuel rest).2)

/-- The frame decoder of R88 on a whole byte stream. -/
def decodeStream (bs : List Byte) : List Instr × List Byte := decodeStreamFuel bs.length bs

/-- The frame of a command (R71, R72, R78, R79). -/
def encode : Instr → List Byte
  | .init key iv => 0x01 :: (le16 key.length ++ key ++ (le16 iv.length ++ iv))
  | .xform d => [0x02, d]
  | .wipe => [0x03]
  | .reserved op => [op]

/-- The opcode byte of a command (R71). -/
def Instr.opcode : Instr → Byte
  | .init _ _ => 0x01
  | .xform _ => 0x02
  | .wipe => 0x03
  | .reserved op => op

/-- The length in bytes of a command's frame (R72, R75, R78, R79). -/
def Instr.frameLength : Instr → Nat
  | .init key iv => 5 + key.length + iv.length
  | .xform _ => 2
  | .wipe => 1
  | .reserved _ => 1

/-- The one encoding of each response (R80, R81). -/
def encodeResp : Resp → List Byte
  | .ok => [0x00]
  | .okData q => [0x00, q]
  | .invalidKeySize n => 0x01 :: le16 n.toNat
  | .invalidIvSize n => 0x02 :: le16 n.toNat
  | .notReady => [0x03]
  | .illegalCommand => [0x04]

/-- What a host reads from a response frame; none for a frame the CORE never emits (R81, 93 U9). -/
def decodeResp : List Byte → Option Resp
  | [st] =>
    if st = 0x00 then some .ok
    else if st = 0x03 then some .notReady
    else if st = 0x04 then some .illegalCommand
    else none
  | [st, q] => if st = 0x00 then some (.okData q) else none
  | [st, lo, hi] =>
    if st = 0x01 then some (.invalidKeySize (BitVec.ofNat 16 (ofLe16 lo hi)))
    else if st = 0x02 then some (.invalidIvSize (BitVec.ofNat 16 (ofLe16 lo hi)))
    else none
  | _ => none

/-- Byte `p` of an instruction whose bits are `w`, every bit at or above `nbits` zero. -/
def wordByte (nbits w p : Nat) : Byte := BitVec.ofNat 8 ((w % 2 ^ nbits) >>> (8 * p))

/-- The length in bytes of the frame that begins with the bytes of `w` (R75). -/
def wordFrameLength (nbits w : Nat) : Nat :=
  let kl := ofLe16 (wordByte nbits w 1) (wordByte nbits w 2)
  let vl := ofLe16 (wordByte nbits w (3 + kl)) (wordByte nbits w (4 + kl))
  if wordByte nbits w 0 = 0x01 then 5 + kl + vl
  else if wordByte nbits w 0 = 0x02 then 2
  else 1

/-- The bytes of exactly the one frame that an opcode-table word begins, operand bytes above `nbits` zero. -/
def wordFrame (nbits w : Nat) : List Byte := (List.range (wordFrameLength nbits w)).map (wordByte nbits w)

/-- The instruction the decoder reads from an opcode-table word. -/
def decodeTableWord (nbits w : Nat) : Option Instr :=
  match decodeFrame (wordFrame nbits w) with
  | .ok (i, _) => some i
  | .error _ => none

end Sys2Proof
end

