-- ==== Sys2Proof/Machine/State.lean ====
section
/-! DEFINITION. The state of one CORE instance and of the host that drives it, as plain data (10_state.md R20, R28, R30,
R37, R38), the reasons a step can stop, and the state after reset (70_reset_and_hazards.md R190). -/

namespace Sys2Proof.Machine

/-- A permutation table's memory: (index, byte) pairs in one canonical form (`Memory.wf` in Ops.lean). -/
abbrev Memory := List Host.Cell

/-- What an index that is not listed reads as: the reset contents of both tables (R38). -/
def Memory.unlisted : Byte := 0x00

/-- LIFECYCLE (R28), one name for each code of the 2-bit register. -/
inductive Lifecycle where
  /-- 0b00: no successful INIT since reset. -/
  | uninit
  /-- 0b01: the tables are permutations. -/
  | ready
  /-- 0b10: the wipe values hold, or zero tables after XFORMs. -/
  | wiped
  /-- 0b11: reserved; no rule writes it. -/
  | reserved
  deriving DecidableEq, Repr

/-- The state record of R20, with the names of the spec. -/
structure Engine where
  /-- Table SK (R21). -/
  sk : Memory
  /-- Table SV (R22). -/
  sv : Memory
  /-- `cursor` (R24). -/
  cursor : Byte
  /-- `accum_key` (R25). -/
  accumKey : Byte
  /-- `accum_iv` (R26). -/
  accumIv : Byte
  /-- LIFECYCLE (R28). -/
  lifecycle : Lifecycle
  deriving DecidableEq, Repr

/-- The reset values of R38. -/
def Engine.reset : Engine :=
  { sk := [], sv := [], cursor := 0xFF, accumKey := 0x00, accumIv := 0x00, lifecycle := .uninit }

/-- What the host does next: the inputs of the CORE (R190, R193, R201) and the TRANSFORM wrapper (R135).
DESIGN CHOICE, log entry 1. -/
inductive HostAction where
  /-- Put bytes on the command port. -/
  | send (bytes : List Byte)
  /-- Read the response frame that waits on the response port. -/
  | take
  /-- Assert reset; `preempt` says it comes before a received command has begun (R191). -/
  | reset (preempt : Bool)
  /-- Call `TRANSFORM(input, out_capacity)` (R135). -/
  | transform (input : List Byte) (capacity : Nat)
  deriving DecidableEq, Repr

/-- One CORE instance, its ports, the ghost flags, and the host that drives it. -/
structure State where
  /-- The CORE's architectural state (R20). -/
  engine : Engine
  /-- Ghost flag `contract_violation` (R30). -/
  contractViolation : Bool
  /-- Ghost flag `host_fault` (R30, R135). -/
  hostFault : Bool
  /-- The bytes the frame decoder has received and not yet run (R37, R79). -/
  frameBuf : List Byte
  /-- The response bytes the host has not yet read (R37, R190). -/
  respPort : List Byte
  /-- MODEL: what the host still has to do, first action first. -/
  host : List HostAction
  /-- MODEL: the response frames the host has read, oldest first (R205). -/
  observed : List (List Byte)
  deriving DecidableEq, Repr

/-- Why the machine makes no move. All are raised by `step` or by a command's meaning, and all are safe: the hardware
either makes no move there either, or the spec gives it no behaviour. -/
inductive Fault where
  /-- Raised by `step`: a frame stopped part-way and the host sends nothing more (R202, 93 U14). Safe: stuck. -/
  | frameIncomplete
  /-- Raised by `step`: bytes of a next command wait behind an unread response and the host does nothing more (R201,
  93 U11). Safe: back-pressure is OPEN. -/
  | responseUnread
  /-- Raised by `step`: bytes of another command before the response was read (R63, R201, 93 U2). Safe: no meaning. -/
  | commandRace
  /-- Raised by every command: LIFECYCLE holds the reserved code 0b11 (R28, 93 U8). Safe: unreachable. -/
  | reservedLifecycle
  deriving DecidableEq, Repr

/-- Why an instruction has no meaning in the model. -/
inductive Refusal where
  /-- Raised by an arm of `exec` that has no meaning yet; no arm raises it now. Safe. -/
  | notModelled (mnemonic : String)
  deriving DecidableEq, Repr

/-- The machine right after reset, with nothing presented by the host (R38, R190). DESIGN CHOICE for
`hostFault`, `host` and `observed`: log entry 7. -/
def State.reset : State :=
  { engine := Engine.reset, contractViolation := false, hostFault := false, frameBuf := [], respPort := [],
    host := [], observed := [] }

end Sys2Proof.Machine
end

