-- ==== Sys2Proof/Machine/Ops.lean ====
section
/-! DEFINITION. The shared operations: table reads, writes and swaps (00_scope.md R10; 20_memory.md R50 to R55), the end of
a command with its response (R12, R80), and the reporting of an error (R12, R160, R166). -/

namespace Sys2Proof.Machine

/-- The canonical form from index `lo` up: indices rise, stay below 256, and no listed byte is the unlisted one. -/
def Memory.wfFrom : Nat → Memory → Bool
  | _, [] => true
  | lo, (a, v) :: m => decide (lo ≤ a) && decide (a < Config.tableSize) && v != Memory.unlisted && Memory.wfFrom (a + 1) m

/-- The canonical form of a table's memory: equal tables are equal lists. -/
def Memory.wf (m : Memory) : Bool := Memory.wfFrom 0 m

/-- The byte at an index, as a natural number. -/
def Memory.readAt : Memory → Nat → Byte
  | [], _ => Memory.unlisted
  | (a, v) :: m, k => if a = k then v else Memory.readAt m k

/-- A memory with an index of the right place set; writing the unlisted byte removes the entry. -/
def Memory.writeAt : Memory → Nat → Byte → Memory
  | [], k, v => if v = Memory.unlisted then [] else [(k, v)]
  | (a, w) :: m, k, v =>
    if k < a then if v = Memory.unlisted then (a, w) :: m else (k, v) :: (a, w) :: m
    else if k = a then if v = Memory.unlisted then m else (k, v) :: m
    else (a, w) :: Memory.writeAt m k v

/-- `T[p]`, that is MemRead(T, p, 1) (R10). -/
def Memory.read (m : Memory) (p : Byte) : Byte := Memory.readAt m p.toNat

/-- `T[p] <- v`, that is MemWrite(T, p, 1, v) (R10). -/
def Memory.write (m : Memory) (p v : Byte) : Memory := Memory.writeAt m p.toNat v

/-- `Swap(T, p, q)`: tmp <- T[p]; T[p] <- T[q]; T[q] <- tmp (R10). -/
def Memory.swap (m : Memory) (p q : Byte) : Memory :=
  Memory.write (Memory.write m p (Memory.read m q)) q (Memory.read m p)

/-- The indices 0, 1, ..., 255 in order. -/
def allBytes : List Byte := (List.range Config.tableSize).map (BitVec.ofNat 8)

/-- A table with all 256 entries written: `T[p] <- f p` for every p. -/
@[irreducible] def Memory.fill (f : Byte → Byte) : Memory :=
  (List.range Config.tableSize).filterMap fun a =>
    if f (BitVec.ofNat 8 a) = Memory.unlisted then none else some (a, f (BitVec.ofNat 8 a))

/-- The state with another engine. -/
def State.withEngine (s : State) (e : Engine) : State := { s with engine := e }

/-- `respond(status, payload)` ends a command and puts its frame on the response port (R12, R80). -/
def State.respond (s : State) (r : Resp) : State := { s with respPort := s.respPort ++ encodeResp r }

/-- `raise` (R12): report an error in the response and leave all state unchanged (R160, R166). The CORE saves nothing
and control goes nowhere, so there is no return from it (R167). -/
def State.raise (s : State) (r : Resp) : Host.Outcome State Fault Refusal := .next (s.respond r)

end Sys2Proof.Machine
end

