-- ==== Sys2Proof/Machine/Flags.lean ====
section
/-! DEFINITION. The CORE has no flags and no condition codes (10_state.md R32). What stands here is its one control
register's code (R28), the check for the reserved code, and the model-only ghost flags (R12, R30). -/

namespace Sys2Proof.Machine

/-- The 2-bit code of LIFECYCLE (R28, D13). -/
def Lifecycle.code : Lifecycle → BitVec 2
  | .uninit => 0b00
  | .ready => 0b01
  | .wiped => 0b10
  | .reserved => 0b11

/-- A code some rule writes (R28). -/
def Lifecycle.legal (l : Lifecycle) : Bool := l != .reserved

/-- A command at the reserved LIFECYCLE code makes no move (93 U8); at the others it acts as `act` says. -/
def State.whenLegal (s : State) (act : Host.Outcome State Fault Refusal) : Host.Outcome State Fault Refusal :=
  if s.engine.lifecycle.legal then act else .fault .reservedLifecycle

/-- `ghost_set(contract_violation)` of an XFORM, which happens in WIPED only (R30, R131). -/
def State.noteXform (s : State) : State :=
  { s with contractViolation := s.contractViolation || s.engine.lifecycle == .wiped }

/-- `ghost_set(host_fault)` (R135). -/
def State.noteHostFault (s : State) : State := { s with hostFault := true }

end Sys2Proof.Machine
end

