-- ==== Sys2Proof/Machine/Operands.lean ====
section
/-! DEFINITION. The operands of the commands: the length checks of INIT (40_init.md R101) and the index forms by which a
table is reached (20_memory.md R52). -/

namespace Sys2Proof.Machine

/-- KL is in the inclusive range [1, 256] (R101). -/
def keyLengthOk (kl : Nat) : Bool := decide (Config.keyLenMin ≤ kl) && decide (kl ≤ Config.keyLenMax)

/-- VL is in the inclusive range [1, 256] (R101). -/
def ivLengthOk (vl : Nat) : Bool := decide (Config.ivLenMin ≤ vl) && decide (vl ≤ Config.ivLenMax)

/-- `K[i mod L]` of the key schedule (R103). INIT's checks make L at least 1, so the default is never read. DESIGN CHOICE
for lengths outside [1, 256], which R103 does not define: log entry 18. -/
def scheduleByte (K : List Byte) (i : Byte) : Byte := K.getD (i.toNat % K.length) 0x00

/-- Scrambled cursor into SK: `a = (cursor << 5) XOR (cursor >> 3)` (R124, R9). -/
def scrambleKey (cursor : Byte) : Byte := (cursor <<< 5) ^^^ (cursor >>> 3)

/-- Scrambled cursor into SV: `b = (cursor << 3) XOR (cursor >> 5)` (R124, R9). -/
def scrambleIv (cursor : Byte) : Byte := (cursor <<< 3) ^^^ (cursor >>> 5)

/-- Computed sum into SK: `t = SK[a] + SV[b] + SK[accum_iv] + SV[accum_key]` (R125); the accumulators cross. -/
def sumIndex (e : Engine) : Byte :=
  Memory.read e.sk (scrambleKey e.cursor) + Memory.read e.sv (scrambleIv e.cursor)
    + Memory.read e.sk e.accumIv + Memory.read e.sv e.accumKey

/-- `rotl8(x, n)` for 0 < n < 8 (R13), used in derived statements only. -/
def rotl8 (x : Byte) (n : Nat) : Byte := (x <<< n) ^^^ (x >>> (8 - n))

end Sys2Proof.Machine
end

