-- ==== Sys2Proof/Machine/Init.lean ====
section
/-! DEFINITION. INIT (40_init.md R100 to R110): construction and the dual key schedule. -/

namespace Sys2Proof.Machine

/-- The identity table, `T[p] <- p` (R102). -/
def Memory.identity : Memory := Memory.fill id

/-- One iteration of KSA at schedule position `i`: `j <- j + T[i] + K[i mod L]`, then `Swap(T, i, j)` (R103). -/
def ksaStep (K : List Byte) (tj : Memory × Byte) (i : Byte) : Memory × Byte :=
  let j := tj.2 + Memory.read tj.1 i + scheduleByte K i
  (Memory.swap tj.1 i j, j)

/-- KSA(K): the identity, then 256 iterations in order with `j` starting at 0 (R103). -/
@[irreducible] def ksa (K : List Byte) : Memory := (allBytes.foldl (ksaStep K) (Memory.identity, 0x00)).1

/-- The engine a successful INIT leaves (R103, R104, R105). -/
def Engine.keyed (key iv : List Byte) : Engine :=
  { sk := ksa key, sv := ksa iv, cursor := 0x00, accumKey := 0x00, accumIv := 0x00, lifecycle := .ready }

/-- INIT(key, iv) (R100); the key check comes first (R165). -/
def execInit (key iv : List Byte) (s : State) : Host.Outcome State Fault Refusal :=
  s.whenLegal <|
    if !keyLengthOk key.length then s.raise (.invalidKeySize (BitVec.ofNat 16 key.length))
    else if !ivLengthOk iv.length then s.raise (.invalidIvSize (BitVec.ofNat 16 iv.length))
    else .next ((s.withEngine (Engine.keyed key iv)).respond .ok)

end Sys2Proof.Machine
end

