-- ==== Sys2Proof/Machine/Reserved.lean ====
section
/-! DEFINITION. A reserved opcode (30_encoding.md R83; 60_exceptions.md R164). -/

namespace Sys2Proof.Machine

/-- A reserved opcode byte gets ILLEGAL_COMMAND and changes no state, whichever byte it is (R164). -/
def execReserved (_op : Byte) (s : State) : Host.Outcome State Fault Refusal :=
  s.whenLegal (s.raise .illegalCommand)

end Sys2Proof.Machine
end

