-- ==== Sys2Proof/Machine/Wipe.lean ====
section
/-! DEFINITION. WIPE (42_wipe.md R150 to R157): secure erasure. -/

namespace Sys2Proof.Machine

/-- The wipe values: all 512 entries written with 0x00, the indices at their fixed values, WIPED (R151, R152, R153). -/
def Engine.wiped : Engine :=
  { sk := Memory.fill fun _ => 0x00, sv := Memory.fill fun _ => 0x00, cursor := 0xFF, accumKey := 0x00, accumIv := 0x00,
    lifecycle := .wiped }

/-- WIPE() (R150). -/
def execWipe (s : State) : Host.Outcome State Fault Refusal :=
  s.whenLegal (.next ((s.withEngine Engine.wiped).respond .ok))

end Sys2Proof.Machine
end

