-- ==== Sys2Proof/Machine/Xform.lean ====
section
/-! DEFINITION. XFORM (41_xform.md R120 to R136): the streaming transform of one byte. -/

namespace Sys2Proof.Machine

/-- Step 1: the cursor, before any table access (R121). -/
def Engine.bumpCursor (e : Engine) : Engine := { e with cursor := e.cursor + 1 }

/-- Steps 2 and 3: each accumulator adds its table's entry at the new cursor (R122). -/
def Engine.accumulate (e : Engine) : Engine :=
  { e with accumKey := e.accumKey + Memory.read e.sk e.cursor, accumIv := e.accumIv + Memory.read e.sv e.cursor }

/-- Steps 4 and 5: the swaps of the two tables (R123). -/
def Engine.swapTables (e : Engine) : Engine :=
  { e with sk := Memory.swap e.sk e.cursor e.accumKey, sv := Memory.swap e.sv e.cursor e.accumIv }

/-- Steps 1 to 5: the update step. LIFECYCLE is not written (R120). -/
def Engine.advance (e : Engine) : Engine := e.bumpCursor.accumulate.swapTables

/-- Steps 6 and 7: `ks = SK[t]`, every read after both swaps (R124, R125). -/
def Engine.keystream (e : Engine) : Byte := Memory.read e.sk (sumIndex e)

/-- XFORM(D) (R120): NOT_READY in UNINIT (R130), else steps 1 to 8 (R126), with the ghost flag in WIPED (R131). -/
def execXform (d : Byte) (s : State) : Host.Outcome State Fault Refusal :=
  s.whenLegal <|
    if s.engine.lifecycle = .uninit then s.raise .notReady
    else .next ((s.noteXform.withEngine s.engine.advance).respond (.okData (d ^^^ s.engine.advance.keystream)))

end Sys2Proof.Machine
end

