-- ==== Sys2Proof/Machine/Dispatch.lean ====
section
/-! DEFINITION. The meaning of each command, one arm per constructor of Instr. -/

namespace Sys2Proof.Machine

def exec (i : Instr) (s : State) : Host.Outcome State Fault Refusal :=
  match i with
  | .init key iv => Sys2Proof.Machine.execInit key iv s
  | .xform d => Sys2Proof.Machine.execXform d s
  | .wipe => Sys2Proof.Machine.execWipe s
  | .reserved op => Sys2Proof.Machine.execReserved op s

end Sys2Proof.Machine
end

