-- ==== Sys2Proof/Machine/HostPort.lean ====
section
/-! DEFINITION. What the host can do to one CORE: send bytes, read a response, assert reset (70_reset_and_hazards.md R190,
R191, R201), and the TRANSFORM wrapper (41_xform.md R135). -/

namespace Sys2Proof.Machine

/-- A reset: every piece of the CORE at its reset value, a partly received frame and unread responses discarded, the
ghost flags kept (R190). DESIGN CHOICE, log entry 23: what the host has read stays in `observed`, and a whole frame not
yet run is dropped with no answer. -/
def State.applyReset (s : State) : State := { s with engine := Engine.reset, frameBuf := [], respPort := [] }

/-- One command as a host sends it: its whole frame, then the response is read before anything else (R201). -/
def sendAndTake (i : Instr) : List HostAction := [.send (encode i), .take]

/-- A command sequence as the host presents it, one outstanding at a time (R58, R201, R205). -/
def hostProgram (is : List Instr) : List HostAction := is.flatMap sendAndTake

/-- Bytes on the command port; another command while a response is pending is a race (R63, R201). -/
def State.hostSend (bytes : List Byte) (s : State) : Host.Outcome State Fault Refusal :=
  if s.respPort = [] then .next { s with frameBuf := s.frameBuf ++ bytes } else .fault .commandRace

/-- The host reads the pending response frame; with none pending it reads nothing. DESIGN CHOICE, log entry 6. -/
def State.hostTake (s : State) : State :=
  if s.respPort = [] then s else { s with respPort := [], observed := s.observed ++ [s.respPort] }

/-- The wrapper checks the capacity before it issues any XFORM; on failure it issues none and the model records a host
fault (R135). DEDUCED, log entry 11. -/
def State.hostTransform (input : List Byte) (capacity : Nat) (s : State) : State :=
  if input.length ≤ capacity then { s with host := hostProgram (input.map .xform) ++ s.host } else s.noteHostFault

/-- The effect of one host action. -/
def hostAct (a : HostAction) (s : State) : Host.Outcome State Fault Refusal :=
  match a with
  | .send bytes => s.hostSend bytes
  | .take => .next s.hostTake
  | .reset _ => .next s.applyReset
  | .transform input capacity => .next (s.hostTransform input capacity)

/-- The host's turn: its next action, or `whenDone` where it has none. -/
def hostTurn (whenDone : Host.Outcome State Fault Refusal) (s : State) : Host.Outcome State Fault Refusal :=
  match s.host with
  | [] => whenDone
  | a :: rest => hostAct a { s with host := rest }

/-- The host asserts reset before a received command has begun (R191). DESIGN CHOICE, log entries 10 and 22. -/
def State.resetPreempts (s : State) : Bool := s.host.head? == some (.reset true)

/-- The CORE's turn: a complete frame alone in the frame decoder is one command; while a frame is still incomplete, or
a response is unread, or nothing has come, the host has its turn. Between commands the CORE is idle and keeps all its
state, an unread response included (R182); no command begins before that response is taken (R201).
DESIGN CHOICE and DEDUCED: log entries 1 to 5. A reset that does not come first does not lift a race: log entry 22. -/
def coreTurn (run : Instr → State → Host.Outcome State Fault Refusal) (s : State) :
    Host.Outcome State Fault Refusal :=
  if s.respPort = [] then
    match decodeFrame s.frameBuf with
    | .ok (i, []) => run i { s with frameBuf := [] }
    | .ok (_, _ :: _) => .fault .commandRace
    | .error .empty => hostTurn (.next s) s
    | .error .incomplete => hostTurn (.fault .frameIncomplete) s
  else hostTurn (if s.frameBuf = [] then .next s else .fault .responseUnread) s

end Sys2Proof.Machine
end

