-- ==== Sys2Proof/Machine/Step.lean ====
section
/-! DEFINITION. One step of the machine (00_scope.md R11; 20_memory.md R58): one command as one atomic transition, or one
action of the host. -/

namespace Sys2Proof.Machine

/-- One step. A reset the host asserts first comes first (R191); else the CORE runs a received command, or the host acts.
DESIGN CHOICE, log entry 22: a reset asserted first also lifts a race, which R63 leaves without meaning. -/
def step (s : State) : Host.Outcome State Fault Refusal :=
  if s.resetPreempts then hostTurn (.next s) s else coreTurn exec s

/-- The state with one whole command frame in the frame decoder, ready to run: its response port is empty, and no reset
comes before the command. -/
def State.withFetchWord (s : State) (nbits w : Nat) : State :=
  { s with frameBuf := wordFrame nbits w, respPort := [], host := s.host.dropWhile (· == .reset true) }

end Sys2Proof.Machine
end

