-- ==== Sys2Proof/Machine/Asm.lean ====
section
/-! DEFINITION. The assembler (30_encoding.md R85) and the pseudo-instructions (R86): a line of text, the line it stands
for, and the commands and bytes it expands to. -/

namespace Sys2Proof.Machine

/-- One line of assembly: the commands, the pseudo-instructions of R86 and the directive `.op` of R85. -/
inductive AsmLine where
  | init (key iv : List Byte)
  | xform (d : Byte)
  | wipe
  | op (b : Byte)
  | transform (bs : List Byte)
  | encrypt (bs : List Byte)
  | decrypt (bs : List Byte)
  | keystream (n : Nat)
  | rekey (key iv : List Byte)
  deriving DecidableEq, Repr

/-- The commands a line expands to (R86). `.op` is a bare opcode byte (R85). -/
def AsmLine.expand : AsmLine → List Instr
  | .init key iv => [.init key iv]
  | .xform d => [.xform d]
  | .wipe => [.wipe]
  | .op b => [.reserved b]
  | .transform bs => bs.map .xform
  | .encrypt bs => bs.map .xform
  | .decrypt bs => bs.map .xform
  | .keystream n => List.replicate n (.xform 0x00)
  | .rekey key iv => [.init key iv]

/-- The bytes a line emits; KL and VL are computed from the lists (R85). DESIGN CHOICE, log entry 20: for an INIT or
REKEY line with a list longer than 65535 bytes, whose length no field can express (D4), the low 16 bits of the length
are emitted, then all the bytes. -/
def AsmLine.bytes (l : AsmLine) : List Byte := l.expand.flatMap encode

/-- A finished token, if it has a character. -/
def flushToken (cur : List Char) : List (List Char) := if cur.isEmpty then [] else [cur.reverse]

/-- Tokens of a line: `;` starts a comment and blanks separate (R85). `,` and `=` stand alone, and every letter is made
lower case: R85 says so of mnemonics alone, and DESIGN CHOICE, log entry 16, extends it to `key` and `iv`, to the `0x`
prefix, to `.op` and to hexadecimal digits. -/
def lexLine (cur : List Char) : List Char → List (List Char)
  | [] => flushToken cur
  | c :: cs =>
    if c = ';' then flushToken cur
    else if c = ' ' || c = '\t' then flushToken cur ++ lexLine [] cs
    else if c = ',' || c = '=' then flushToken cur ++ [c] :: lexLine [] cs
    else lexLine (c.toLower :: cur) cs

/-- A decimal digit's value. -/
def decDigit (c : Char) : Option Nat :=
  if '0'.toNat ≤ c.toNat ∧ c.toNat ≤ '9'.toNat then some (c.toNat - '0'.toNat) else none

/-- A hexadecimal digit's value; the lexer has made letters lower case. -/
def hexDigit (c : Char) : Option Nat :=
  if 'a'.toNat ≤ c.toNat ∧ c.toNat ≤ 'f'.toNat then some (c.toNat - 'a'.toNat + 10) else decDigit c

/-- A two-digit pair of a hex byte list (R85). -/
def hexPair : List Char → Option Byte
  | [h, l] =>
    match hexDigit h, hexDigit l with
    | some x, some y => some (BitVec.ofNat 8 (16 * x + y))
    | _, _ => none
  | _ => none

/-- A byte operand, `0x41` or `41` (R85). -/
def byteArg : List Char → Option Byte
  | '0' :: 'x' :: ds => hexPair ds
  | ds => hexPair ds

/-- A list of two-digit pairs; the empty list is allowed (R85). -/
def hexList : List (List Char) → Option (List Byte)
  | [] => some []
  | t :: ts =>
    match hexPair t, hexList ts with
    | some b, some bs => some (b :: bs)
    | _, _ => none

/-- A decimal count (R7). -/
def decNat (acc : Nat) : List Char → Option Nat
  | [] => some acc
  | c :: cs =>
    match decDigit c with
    | some d => decNat (10 * acc + d) cs
    | none => none

/-- The operands `key=<hexbytes>, iv=<hexbytes>` (R85). -/
def keyIvArgs (ts : List (List Char)) : Option (List Byte × List Byte) :=
  match ts.span (· != [',']) with
  | (['k', 'e', 'y'] :: ['='] :: ks, [','] :: ['i', 'v'] :: ['='] :: vs) =>
    match hexList ks, hexList vs with
    | some key, some iv => some (key, iv)
    | _, _ => none
  | _ => none

/-- One token that is a byte operand. -/
def oneByte : List (List Char) → Option Byte
  | [t] => byteArg t
  | _ => none

/-- One line's tokens as an assembly line (R85, R86); none where the syntax is broken. -/
def parseTokens : List (List Char) → Option AsmLine
  | ['i', 'n', 'i', 't'] :: ts => (keyIvArgs ts).map fun a => .init a.1 a.2
  | ['r', 'e', 'k', 'e', 'y'] :: ts => (keyIvArgs ts).map fun a => .rekey a.1 a.2
  | ['x', 'f', 'o', 'r', 'm'] :: ts => (oneByte ts).map .xform
  | ['.', 'o', 'p'] :: ts => (oneByte ts).map .op
  | [['w', 'i', 'p', 'e']] => some .wipe
  | ['t', 'r', 'a', 'n', 's', 'f', 'o', 'r', 'm'] :: ts => (hexList ts).map .transform
  | ['e', 'n', 'c', 'r', 'y', 'p', 't'] :: ts => (hexList ts).map .encrypt
  | ['d', 'e', 'c', 'r', 'y', 'p', 't'] :: ts => (hexList ts).map .decrypt
  | [['k', 'e', 'y', 's', 't', 'r', 'e', 'a', 'm'], d :: ds] => (decNat 0 (d :: ds)).map .keystream
  | _ => none

/-- A line of text: `some []` where it holds only blanks and a comment, else the one line it stands for. -/
def parseLine (text : List Char) : Option (List AsmLine) :=
  match lexLine [] text with
  | [] => some []
  | ts => (parseTokens ts).map fun l => [l]

/-- A command stream, one command per line (R85). -/
def parseProgram : List (List Char) → Option (List AsmLine)
  | [] => some []
  | line :: lines =>
    match parseLine line, parseProgram lines with
    | some l, some ls => some (l ++ ls)
    | _, _ => none

/-- An assembled program as the host presents it, one command outstanding at a time (R86, R201). -/
def asmHostProgram (ls : List AsmLine) : List HostAction := hostProgram (ls.flatMap AsmLine.expand)

end Sys2Proof.Machine
end

