-- ==== Sys2Proof/Machine/System.lean ====
section
/-! DEFINITION. A system of CORE instances (60_exceptions.md R180; 10_state.md R36): a list of states, nothing shared. The
length of the list is the OPEN parameter N_ENGINES. -/

namespace Sys2Proof.Machine

/-- Every instance at reset, in UNINIT (R180). -/
def systemReset (nEngines : Nat) : List State := List.replicate nEngines State.reset

/-- Instance `k` makes a step; the others do not. An index with no instance moves nothing. -/
def systemStep (k : Nat) (sys : List State) : Host.Outcome (List State) Fault Refusal :=
  match sys[k]? with
  | none => .next sys
  | some s =>
    match step s with
    | .next t => .next (sys.set k t)
    | .fault f => .fault f
    | .refused r => .refused r

end Sys2Proof.Machine
end

