-- ==== Sys2Proof/Safety.lean ====
section
/-! DEFINITION. What counts as a finished, a stuck and a proper run (70_reset_and_hazards.md R202, R205; 60_exceptions.md
R168), and the invariants of the state (10_state.md R23, R28). -/

namespace Sys2Proof.Safety

open Sys2Proof.Machine

/-- Every frame has been answered (R205): no byte of a frame waits, and the host has nothing more to do but to read.
Whether it has read every response does not matter. DESIGN CHOICE, log entry 23: a frame that a reset dropped no longer
waits and does not stand against the end of the run. -/
def finished (s : State) : Bool := s.frameBuf == [] && s.host.all (· == .take)

/-- What a run shows (R205): its response frames, and the final state of R20 with the ghost flags. -/
structure Observation where
  /-- The response frames, oldest first, whether the host has read them or not. -/
  responses : List (List Byte)
  /-- The state of R20. -/
  engine : Engine
  /-- Ghost flag `contract_violation` (R30). -/
  contractViolation : Bool
  /-- Ghost flag `host_fault` (R30, R135). -/
  hostFault : Bool
  deriving DecidableEq, Repr

/-- The response frame that waits on the port, if there is one. -/
def unreadFrames (s : State) : List (List Byte) := if s.respPort = [] then [] else [s.respPort]

/-- The observation of a run that has come to `s` (R205). DESIGN CHOICE, log entry 23: over a reset it keeps the frames read
before it, and leaves out a response that the reset discarded unread. -/
def observation (s : State) : Observation :=
  { responses := s.observed ++ unreadFrames s, engine := s.engine, contractViolation := s.contractViolation,
    hostFault := s.hostFault }

/-- The machine makes no move here (R202). -/
def stuck (s : State) : Prop := ∃ f, step s = .fault f

/-- No usage violation has been recorded (R168): the premise a claim may take. -/
def proper (s : State) : Bool := !s.contractViolation && !s.hostFault

/-- Both tables are in the canonical form. -/
def tablesCanonical (e : Engine) : Bool := Memory.wf e.sk && Memory.wf e.sv

/-- Each of the 256 Byte values occurs exactly once in the table (R23). -/
def isPermutation (m : Memory) : Prop := ∀ v : Byte, ∃ p : Byte, Memory.read m p = v ∧ ∀ q : Byte, Memory.read m q = v → q = p

/-- What the tables and indices are in each LIFECYCLE (R23, R28, R38, R131). -/
def engineInvariant (e : Engine) : Prop :=
  tablesCanonical e = true ∧
    match e.lifecycle with
    | .uninit => e = Engine.reset
    | .ready => isPermutation e.sk ∧ isPermutation e.sv
    | .wiped => e.sk = [] ∧ e.sv = [] ∧ e.accumKey = 0x00 ∧ e.accumIv = 0x00
    | .reserved => False

end Sys2Proof.Safety
end

