-- ==== Sys2Proof/Safety/Abstract.lean ====
section
/-! DEFINITION. The CORE as a machine over functions, written straight from the rules' pseudocode without the model's
memory, ports or host (10_state.md R20; 30_encoding.md R87). Statements compare the model with it. -/

namespace Sys2Proof.Safety

open Sys2Proof.Machine

/-- The record R20 suggests, tables as functions of a Byte. -/
structure AbsEngine where
  sk : Byte → Byte
  sv : Byte → Byte
  cursor : Byte
  accKey : Byte
  accIv : Byte
  life : Lifecycle

/-- The abstract record a model engine stands for. -/
def absEngine (e : Engine) : AbsEngine :=
  { sk := fun p => Memory.read e.sk p, sv := fun p => Memory.read e.sv p, cursor := e.cursor, accKey := e.accumKey,
    accIv := e.accumIv, life := e.lifecycle }

/-- Swap of two entries of a function table (R10). -/
def absSwap (T : Byte → Byte) (p q : Byte) : Byte → Byte :=
  fun r => if r = p then T q else if r = q then T p else T r

/-- Table and accumulator of KSA after its first `n` iterations, by recursion on `n` (R103). -/
def absSchedule (K : List Byte) : Nat → (Byte → Byte) × Byte
  | 0 => (fun p => p, 0)
  | n + 1 =>
    let T := (absSchedule K n).1
    let i := BitVec.ofNat 8 n
    let j := (absSchedule K n).2 + T i + K.getD (n % K.length) 0
    (absSwap T i j, j)

/-- KSA(K) (R103). -/
def absKsa (K : List Byte) : Byte → Byte := (absSchedule K 256).1

/-- Steps 1 to 5 of XFORM (R120). -/
def AbsEngine.advance (e : AbsEngine) : AbsEngine :=
  let cursor := e.cursor + 1
  let accKey := e.accKey + e.sk cursor
  let accIv := e.accIv + e.sv cursor
  { e with sk := absSwap e.sk cursor accKey, sv := absSwap e.sv cursor accIv, cursor, accKey, accIv }

/-- Steps 6 and 7 of XFORM, on the tables after the swaps (R120). -/
def AbsEngine.keystream (e : AbsEngine) : Byte :=
  let a := (e.cursor <<< 5) ^^^ (e.cursor >>> 3)
  let b := (e.cursor <<< 3) ^^^ (e.cursor >>> 5)
  e.sk (e.sk a + e.sv b + e.sk e.accIv + e.sv e.accKey)

/-- INIT succeeds on these lengths (R101). -/
def lengthsOk (key iv : List Byte) : Prop := (1 ≤ key.length ∧ key.length ≤ 256) ∧ (1 ≤ iv.length ∧ iv.length ≤ 256)

/-- The response of a command (R80). -/
def AbsEngine.answer (e : AbsEngine) : Instr → Resp
  | .init key iv =>
    if key.length < 1 ∨ 256 < key.length then .invalidKeySize (BitVec.ofNat 16 key.length)
    else if iv.length < 1 ∨ 256 < iv.length then .invalidIvSize (BitVec.ofNat 16 iv.length)
    else .ok
  | .xform d => if e.life = .uninit then .notReady else .okData (d ^^^ e.advance.keystream)
  | .wipe => .ok
  | .reserved _ => .illegalCommand

/-- The engine after a command (R100, R120, R150, R164). -/
def AbsEngine.after (e : AbsEngine) : Instr → AbsEngine
  | .init key iv =>
    if key.length < 1 ∨ 256 < key.length ∨ iv.length < 1 ∨ 256 < iv.length then e
    else { sk := absKsa key, sv := absKsa iv, cursor := 0, accKey := 0, accIv := 0, life := .ready }
  | .xform _ => if e.life = .uninit then e else e.advance
  | .wipe => { sk := fun _ => 0, sv := fun _ => 0, cursor := 255, accKey := 0, accIv := 0, life := .wiped }
  | .reserved _ => e

/-- The responses of a command sequence, in order (R58, R205). -/
def AbsEngine.answers (e : AbsEngine) : List Instr → List Resp
  | [] => []
  | i :: is => e.answer i :: (e.after i).answers is

/-- The engine after a command sequence. -/
def AbsEngine.afterAll (e : AbsEngine) : List Instr → AbsEngine
  | [] => e
  | i :: is => (e.after i).afterAll is

/-- A command is a contract violation: an XFORM in WIPED (R30, R131). -/
def AbsEngine.violates (e : AbsEngine) : Instr → Bool
  | .init _ _ => false
  | .xform _ => e.life == .wiped
  | .wipe => false
  | .reserved _ => false

/-- Some command of the sequence is a contract violation where it runs. -/
def AbsEngine.violatesAny (e : AbsEngine) : List Instr → Bool
  | [] => false
  | i :: is => e.violates i || (e.after i).violatesAny is

/-- The CORE waits for a command: nothing received, nothing unread (R182, R190). -/
def idle (s : State) : Prop := s.frameBuf = [] ∧ s.respPort = []

/-- The state with a host that does these actions next. -/
def withHost (s : State) (as : List HostAction) : State := { s with host := as }

/-- `k` steps of the machine lead from `s` to `t`. -/
def runsTo (k : Nat) (s t : State) : Prop := Host.Core.run Sys2Proof.core k s = .next t

/-- A CORE that waits at a legal LIFECYCLE. -/
def waiting (s : State) : Prop := idle s ∧ s.engine.lifecycle ≠ .reserved

/-- The host has the command sequence `is` to send, one outstanding at a time, and then `after`. -/
def withProgram (s : State) (is : List Instr) (after : List HostAction) : State := withHost s (hostProgram is ++ after)

/-- The response frames of XFORMs that executed, one per output byte (R80). -/
def dataFrames (out : List Byte) : List (List Byte) := out.map fun q => [0x00, q]

/-- The engine is UNINIT in both, or the same in both (R38). -/
def sameButUninit (e f : Engine) : Prop := e = f ∨ (e.lifecycle = .uninit ∧ f.lifecycle = .uninit)

end Sys2Proof.Safety
end

