-- ==== Sys2Proof/Certificates/Slice0/Obligations.lean ====
section
/-! DEFINITION. The statements for the provers. Each docstring names the rules of spec/ it formalises. -/

open Sys2Proof Sys2Proof.Machine Sys2Proof.Safety

/-! Encoding. -/

/-- R72, R78, R79, R88: decoding the frame of any command a frame can carry gives the command back, and leaves the
bytes after it. -/
def Obligations.DecodeEncodeRoundTrip : Prop :=
  ∀ (i : Instr) (rest : List Byte), i.wf = true → decodeFrame (encode i ++ rest) = .ok (i, rest)

/-- R72 to R79, R88, the other direction: whatever decodes is the frame of its command, well-formed, of the length its
format gives. -/
def Obligations.DecodedBytesAreTheFrame : Prop :=
  ∀ (bs rest : List Byte) (i : Instr), decodeFrame bs = .ok (i, rest) →
    i.wf = true ∧ bs = encode i ++ rest ∧ bs.length = i.frameLength + rest.length

/-- R79: a frame that stops part-way, after any number of its bytes, is incomplete and gives no command. -/
def Obligations.CutFrameIsIncomplete : Prop :=
  ∀ (i : Instr) (n : Nat), i.wf = true → 0 < n → n < (encode i).length →
    decodeFrame ((encode i).take n) = .error .incomplete

/-- R88: every byte stream is a sequence of complete frames, each decoded to exactly one command, then at most one
incomplete frame that decodes to none; and the frames of a command sequence decode to that sequence. -/
def Obligations.StreamDecodesFrameByFrame : Prop :=
  (∀ bs : List Byte, bs = (decodeStream bs).1.flatMap encode ++ (decodeStream bs).2 ∧
      (∀ i ∈ (decodeStream bs).1, i.wf = true) ∧ ∃ e, decodeFrame (decodeStream bs).2 = .error e) ∧
  (∀ (is : List Instr) (tail : List Byte) (e : FrameFault), (∀ i ∈ is, i.wf = true) → decodeFrame tail = .error e →
      decodeStream (is.flatMap encode ++ tail) = (is, tail))

/-- R71: the whole opcode byte selects the command, and every byte but 01, 02, 03 is a reserved one. -/
def Obligations.OpcodeByteSelectsCommand : Prop :=
  ∀ (op : Byte) (bs rest : List Byte) (i : Instr), decodeFrame (op :: bs) = .ok (i, rest) →
    (op = 0x01 ↔ ∃ key iv, i = .init key iv) ∧ (op = 0x02 ↔ ∃ d, i = .xform d) ∧ (op = 0x03 ↔ i = .wipe) ∧
    (op ≠ 0x01 ∧ op ≠ 0x02 ∧ op ≠ 0x03 ↔ i = .reserved op)

/-- R72, R73, R74: the fields of an INIT frame stand at their offsets, the two lengths little-endian, and the frame is
5 + KL + VL bytes long. -/
def Obligations.InitFrameFieldsAtTheirOffsets : Prop :=
  ∀ (F rest key iv : List Byte), decodeFrame F = .ok (.init key iv, rest) →
    F.getD 0 0 = 0x01 ∧
    key.length = (F.getD 1 0).toNat + 256 * (F.getD 2 0).toNat ∧
    (∀ p, p < key.length → key[p]? = F[3 + p]?) ∧
    iv.length = (F.getD (3 + key.length) 0).toNat + 256 * (F.getD (4 + key.length) 0).toNat ∧
    (∀ p, p < iv.length → iv[p]? = F[5 + key.length + p]?) ∧
    rest = F.drop (5 + key.length + iv.length)

/-- R80, R81: a host reads each response back from its frame; the status byte is one of 00 to 04. -/
def Obligations.ResponseFramesReadBack : Prop :=
  ∀ r : Resp, decodeResp (encodeResp r) = some r ∧ ∃ st payload, encodeResp r = st :: payload ∧ st.toNat ≤ 4

/-- Words of 95_test_vectors.md V-INIT-5, P1, P2 and V-R-1, written out from the encodings of R71 to R79. -/
def Obligations.FrameWordsDecode : Prop :=
  decodeFrame [0x01, 0x03, 0x00, 0x01, 0x02, 0x03, 0x03, 0x00, 0x04, 0x05, 0x06]
      = .ok (.init [0x01, 0x02, 0x03] [0x04, 0x05, 0x06], []) ∧
  decodeFrame [0x01, 0x00, 0x00, 0x01, 0x00, 0x55] = .ok (.init [] [0x55], []) ∧
  decodeFrame [0x02, 0x5A, 0x03] = .ok (.xform 0x5A, [0x03]) ∧
  decodeFrame [0x03] = .ok (.wipe, []) ∧
  decodeFrame [0x7F, 0x02] = .ok (.reserved 0x7F, [0x02])

/-- The model's own interface (log entry 14): a table word that decodes is the very command the next step runs. -/
def Obligations.FetchedWordRuns : Prop :=
  ∀ (s : State) (nbits w : Nat) (i : Instr), decodeTableWord nbits w = some i →
    step (s.withFetchWord nbits w) = exec i { s.withFetchWord nbits w with frameBuf := [] }

/-! INIT. -/

/-- R100, R104, R105: at lengths in [1, 256], from any LIFECYCLE but the reserved code, INIT completes with `[00]`,
leaves both tables as KSA gives them, the indices 0 and READY, and changes nothing else. -/
def Obligations.InitSucceeds : Prop :=
  ∀ (key iv : List Byte) (s : State), s.engine.lifecycle ≠ .reserved →
    1 ≤ key.length ∧ key.length ≤ 256 → 1 ≤ iv.length ∧ iv.length ≤ 256 →
    exec (.init key iv) s = .next { s with
      engine := { sk := ksa key, sv := ksa iv, cursor := 0, accumKey := 0, accumIv := 0, lifecycle := .ready }
      respPort := s.respPort ++ [0x00] }

/-- R161: INIT with KL outside [1, 256] answers `[01, N]` with N = KL, low byte first, and writes no state; no other
command, and no INIT with KL in range, gives that status. -/
def Obligations.InitRejectsKeyLength : Prop :=
  (∀ (key iv : List Byte) (s : State), s.engine.lifecycle ≠ .reserved → key.length ≤ 65535 →
    (key.length < 1 ∨ 256 < key.length) →
    ∃ lo hi : Byte, lo.toNat + 256 * hi.toNat = key.length ∧
      exec (.init key iv) s = .next { s with respPort := s.respPort ++ [0x01, lo, hi] }) ∧
  (∀ (i : Instr) (s t : State) (payload : List Byte), exec i s = .next t → t.respPort = s.respPort ++ 0x01 :: payload →
    ∃ key iv, i = .init key iv ∧ (key.length < 1 ∨ 256 < key.length))

/-- R162: with KL in [1, 256] and VL outside it, INIT answers `[02, N]` with N = VL, low byte first, and writes no state;
nothing else gives that status. -/
def Obligations.InitRejectsIvLength : Prop :=
  (∀ (key iv : List Byte) (s : State), s.engine.lifecycle ≠ .reserved → iv.length ≤ 65535 →
    1 ≤ key.length ∧ key.length ≤ 256 → (iv.length < 1 ∨ 256 < iv.length) →
    ∃ lo hi : Byte, lo.toNat + 256 * hi.toNat = iv.length ∧
      exec (.init key iv) s = .next { s with respPort := s.respPort ++ [0x02, lo, hi] }) ∧
  (∀ (i : Instr) (s t : State) (payload : List Byte), exec i s = .next t → t.respPort = s.respPort ++ 0x02 :: payload →
    ∃ key iv, i = .init key iv ∧ (1 ≤ key.length ∧ key.length ≤ 256) ∧ (iv.length < 1 ∨ 256 < iv.length))

/-- R102, R103: KSA's table is what its 256 iterations, from the identity and with `j` starting at 0, compute on a table of
functions; and INIT sets SK to KSA(key) and SV to KSA(iv). (R103 defines KSA for lengths in [1, 256]; on the
empty key and on longer keys, which no INIT schedules, the first clause is about the model's own choice: log entry 18.) -/
def Obligations.KeyScheduleComputesKsa : Prop :=
  (∀ (K : List Byte) (p : Byte), Memory.read (ksa K) p = absKsa K p) ∧
  (∀ (key iv : List Byte) (s t : State), lengthsOk key iv → exec (.init key iv) s = .next t →
    ∀ p : Byte, Memory.read t.engine.sk p = absKsa key p ∧ Memory.read t.engine.sv p = absKsa iv p)

/-- R109 (2): KSA always returns a permutation. (On keys outside [1, 256] bytes: the model's choice, log entry 18.) -/
def Obligations.KeyScheduleIsPermutation : Prop := ∀ K : List Byte, isPermutation (ksa K)

/-- R108: KSA reads its key only through `K[i mod L]`, so equal periodic extensions give equal tables.
(Where a key is outside [1, 256] bytes, the empty key among them: the model's choice, log entry 18.) -/
def Obligations.EqualPeriodicKeysGiveEqualTables : Prop :=
  ∀ K K' : List Byte, (∀ i, i < 256 → K.getD (i % K.length) 0 = K'.getD (i % K'.length) 0) → ksa K = ksa K'

/-- R109 (4): under the 256-byte key K_ID the key schedule returns the identity. -/
def Obligations.IdentityKeyGivesIdentityTable : Prop :=
  ∀ K : List Byte, K.length = 256 → K.getD 0 0 = 0 →
    (∀ i, 1 ≤ i → i < 256 → K.getD i 0 = 1 - BitVec.ofNat 8 i) → ∀ p : Byte, Memory.read (ksa K) p = p

/-- R107, and R110's independence of what came before: of two successful INITs, from any two states, SK is the same if the
keys are, SV if the IVs are, the engine if both are; and INIT with key = iv gives SK = SV. -/
def Obligations.InitTablesDependOnTheirOwnOperand : Prop :=
  ∀ (key iv key' iv' : List Byte) (s s' t t' : State), lengthsOk key iv → lengthsOk key' iv' →
    exec (.init key iv) s = .next t → exec (.init key' iv') s' = .next t' →
    (key = key' → t.engine.sk = t'.engine.sk) ∧ (iv = iv' → t.engine.sv = t'.engine.sv) ∧
    (key = key' → iv = iv' → t.engine = t'.engine) ∧ (key = iv → t.engine.sk = t.engine.sv)

/-! XFORM. -/

/-- R130, R163: XFORM in UNINIT answers `[03]` and writes no state, ghost flags included; nothing else gives that
status. -/
def Obligations.XformNotReadyInUninit : Prop :=
  (∀ (d : Byte) (s : State), s.engine.lifecycle = .uninit →
    exec (.xform d) s = .next { s with respPort := s.respPort ++ [0x03] }) ∧
  (∀ (i : Instr) (s t : State) (payload : List Byte), exec i s = .next t → t.respPort = s.respPort ++ 0x03 :: payload →
    (∃ d, i = .xform d) ∧ s.engine.lifecycle = .uninit)

/-- R120 to R126, R131, R132: in READY and in WIPED, XFORM completes. The cursor is one more, each accumulator has its
table's entry at the new cursor added, each table is as before but for the swap of those two entries, the output byte is
D XOR SK[t] with t read after the swaps, and nothing else changes but the ghost flag in WIPED. The premise on the
tables is the invariant StepKeepsTablesCanonical. -/
def Obligations.XformRunsOneUpdateStep : Prop :=
  ∀ (d : Byte) (s : State), (s.engine.lifecycle = .ready ∨ s.engine.lifecycle = .wiped) →
    tablesCanonical s.engine = true →
    ∃ t : State, exec (.xform d) s = .next t ∧
      t.engine.cursor = s.engine.cursor + 1 ∧
      t.engine.accumKey = s.engine.accumKey + Memory.read s.engine.sk t.engine.cursor ∧
      t.engine.accumIv = s.engine.accumIv + Memory.read s.engine.sv t.engine.cursor ∧
      Memory.read t.engine.sk t.engine.cursor = Memory.read s.engine.sk t.engine.accumKey ∧
      Memory.read t.engine.sk t.engine.accumKey = Memory.read s.engine.sk t.engine.cursor ∧
      (∀ p, p ≠ t.engine.cursor → p ≠ t.engine.accumKey → Memory.read t.engine.sk p = Memory.read s.engine.sk p) ∧
      Memory.read t.engine.sv t.engine.cursor = Memory.read s.engine.sv t.engine.accumIv ∧
      Memory.read t.engine.sv t.engine.accumIv = Memory.read s.engine.sv t.engine.cursor ∧
      (∀ p, p ≠ t.engine.cursor → p ≠ t.engine.accumIv → Memory.read t.engine.sv p = Memory.read s.engine.sv p) ∧
      t.engine.lifecycle = s.engine.lifecycle ∧
      t.respPort = s.respPort ++ [(0x00 : Byte), d ^^^ Memory.read t.engine.sk
        (Memory.read t.engine.sk ((t.engine.cursor <<< 5) ^^^ (t.engine.cursor >>> 3))
          + Memory.read t.engine.sv ((t.engine.cursor <<< 3) ^^^ (t.engine.cursor >>> 5))
          + Memory.read t.engine.sk t.engine.accumIv + Memory.read t.engine.sv t.engine.accumKey)] ∧
      t.contractViolation = (s.contractViolation || s.engine.lifecycle == .wiped) ∧
      t = { s with engine := t.engine, contractViolation := t.contractViolation, respPort := t.respPort }

/-- R131: from the wipe values (or zero tables after XFORMs) XFORM answers `[00, D]`, advances the cursor by 1, leaves
the tables zero and the accumulators 0, and sets the ghost flag. -/
def Obligations.XformAfterWipeReturnsItsInput : Prop :=
  ∀ (d : Byte) (s : State), s.engine.lifecycle = .wiped → s.engine.sk = [] → s.engine.sv = [] →
    s.engine.accumKey = 0 → s.engine.accumIv = 0 →
    exec (.xform d) s = .next { s with
      engine := { s.engine with cursor := s.engine.cursor + 1 }
      contractViolation := true
      respPort := s.respPort ++ [0x00, d] }

/-- R127: no step but the last reads D, so the state after an XFORM does not depend on it, and the output is D XOR a
byte that does not depend on it. -/
def Obligations.XformStateIgnoresItsInput : Prop :=
  ∀ s : State, s.engine.lifecycle = .ready ∨ s.engine.lifecycle = .wiped →
    ∃ (u : State) (ks : Byte), ∀ d : Byte, exec (.xform d) s = .next { u with respPort := s.respPort ++ [0x00, d ^^^ ks] }

/-- R124: `a` and `b` by their formulas, the two terms of each on disjoint bits, so XOR is OR and each is a rotation of
the cursor, by 5 and by 3; each is a bijection; they are equal exactly at 00, 55, AA, FF. -/
def Obligations.ScrambledIndicesAreRotations : Prop :=
  (∀ c : Byte, scrambleKey c = (c <<< 5) ^^^ (c >>> 3) ∧ scrambleKey c = (c <<< 5) ||| (c >>> 3) ∧
    scrambleKey c = rotl8 c 5 ∧ scrambleKey c = c.rotateLeft 5) ∧
  (∀ c : Byte, scrambleIv c = (c <<< 3) ^^^ (c >>> 5) ∧ scrambleIv c = (c <<< 3) ||| (c >>> 5) ∧
    scrambleIv c = rotl8 c 3 ∧ scrambleIv c = c.rotateLeft 3) ∧
  (∀ c : Byte, (c <<< 5) &&& (c >>> 3) = 0 ∧ (c <<< 3) &&& (c >>> 5) = 0) ∧
  Function.Bijective scrambleKey ∧ Function.Bijective scrambleIv ∧
  (∀ c : Byte, scrambleKey c = scrambleIv c ↔ c = 0x00 ∨ c = 0x55 ∨ c = 0xAA ∨ c = 0xFF)

/-! WIPE and the reserved opcodes. -/

/-- R150, R151, R152, R153: WIPE completes from every LIFECYCLE but the reserved code with `[00]`, every entry of both
tables is 0x00, the indices have the wipe values, LIFECYCLE is WIPED, and nothing else changes. -/
def Obligations.WipeLeavesTheWipeValues : Prop :=
  ∀ s : State, s.engine.lifecycle ≠ .reserved →
    ∃ t : State, exec .wipe s = .next t ∧
      (∀ p : Byte, Memory.read t.engine.sk p = 0x00 ∧ Memory.read t.engine.sv p = 0x00) ∧
      tablesCanonical t.engine = true ∧
      t.engine.cursor = 0xFF ∧ t.engine.accumKey = 0x00 ∧ t.engine.accumIv = 0x00 ∧ t.engine.lifecycle = .wiped ∧
      t = { s with engine := t.engine, respPort := s.respPort ++ [0x00] }

/-- R154: WIPE's end state is the same whatever came before it: after another WIPE, from any other state, and after
`WIPE; XFORM d`, where the second WIPE takes the cursor from 0x00 back to 0xFF. -/
def Obligations.WipeForgetsWhatWasBefore : Prop :=
  ∀ (s t u : State), exec .wipe s = .next t →
    (exec .wipe t = .next u → u.engine = t.engine) ∧
    (∀ (d : Byte) (v : State), exec (.xform d) t = .next v → exec .wipe v = .next u →
      v.engine.cursor = 0x00 ∧ u.engine.cursor = 0xFF ∧ u.engine = t.engine) ∧
    (∀ s' : State, exec .wipe s' = .next u → u.engine = t.engine)

/-- R164: a frame whose opcode byte is reserved is a command that answers `[04]` and changes no state; nothing else gives
that status. -/
def Obligations.ReservedOpcodeChangesNothing : Prop :=
  (∀ (op : Byte) (bs : List Byte), op ≠ 0x01 → op ≠ 0x02 → op ≠ 0x03 → decodeFrame (op :: bs) = .ok (.reserved op, bs)) ∧
  (∀ (op : Byte) (s : State), s.engine.lifecycle ≠ .reserved →
    exec (.reserved op) s = .next { s with respPort := s.respPort ++ [0x04] }) ∧
  (∀ (i : Instr) (s t : State) (payload : List Byte), exec i s = .next t → t.respPort = s.respPort ++ 0x04 :: payload →
    ∃ op, i = .reserved op)

/-! Every command. -/

/-- R80: every command a frame can carry, at a legal LIFECYCLE, completes and puts exactly one response frame on the port,
the one its row of the table gives, N low byte first. -/
def Obligations.EveryCommandAnswersOnce : Prop :=
  ∀ (i : Instr) (s : State), i.wf = true → s.engine.lifecycle ≠ .reserved →
    ∃ (t : State) (frame : List Byte), exec i s = .next t ∧ t.respPort = s.respPort ++ frame ∧
      (match i with
        | .init key iv =>
          if key.length < 1 ∨ 256 < key.length then
            ∃ lo hi : Byte, frame = [0x01, lo, hi] ∧ lo.toNat + 256 * hi.toNat = key.length
          else if iv.length < 1 ∨ 256 < iv.length then
            ∃ lo hi : Byte, frame = [0x02, lo, hi] ∧ lo.toNat + 256 * hi.toNat = iv.length
          else frame = [0x00]
        | .xform _ => if s.engine.lifecycle = .uninit then frame = [0x03] else ∃ q : Byte, frame = [0x00, q]
        | .wipe => frame = [0x00]
        | .reserved _ => frame = [0x04])

/-- The frame of all commands: the frame decoder, the host, what it has read and `host_fault` are unchanged; the response
port only grows; `contract_violation` changes only by an XFORM in WIPED (R30, R80). -/
def Obligations.CommandsLeaveTheRestAlone : Prop :=
  ∀ (i : Instr) (s t : State), exec i s = .next t →
    t.frameBuf = s.frameBuf ∧ t.host = s.host ∧ t.observed = s.observed ∧ t.hostFault = s.hostFault ∧
    s.respPort <+: t.respPort ∧
    (t.contractViolation = true ↔
      s.contractViolation = true ∨ ((∃ d, i = .xform d) ∧ s.engine.lifecycle = .wiped))

/-- R29: LIFECYCLE changes only as the table says: to READY by an INIT that succeeds, to WIPED by WIPE, to UNINIT by reset;
a failed INIT, an XFORM in any LIFECYCLE and a reserved opcode leave it unchanged. A step that changes it is one of three
moves, each with the LIFECYCLE it leads to: a reset the host asserts (log entry 1), a WIPE, or an INIT at lengths in
[1, 256]. -/
def Obligations.LifecycleChangesOnlyByTheTable : Prop :=
  (∀ (i : Instr) (s t : State), exec i s = .next t →
    (match i with
      | .init key iv => (lengthsOk key iv → t.engine.lifecycle = .ready) ∧
          (¬ lengthsOk key iv → t.engine.lifecycle = s.engine.lifecycle)
      | .wipe => t.engine.lifecycle = .wiped
      | .xform _ => t.engine.lifecycle = s.engine.lifecycle
      | .reserved _ => t.engine.lifecycle = s.engine.lifecycle)) ∧
  (∀ (s t : State), step s = .next t → t.engine.lifecycle ≠ s.engine.lifecycle →
    (t.engine.lifecycle = .uninit ∧
      ∃ preempt after, s.host = .reset preempt :: after ∧ t = { s with host := after }.applyReset) ∨
    (t.engine.lifecycle = .wiped ∧ decodeFrame s.frameBuf = .ok (.wipe, []) ∧
      exec .wipe { s with frameBuf := [] } = .next t) ∨
    (t.engine.lifecycle = .ready ∧ ∃ key iv, lengthsOk key iv ∧ decodeFrame s.frameBuf = .ok (.init key iv, []) ∧
      exec (.init key iv) { s with frameBuf := [] } = .next t)) ∧
  (∀ s : State, s.applyReset.engine.lifecycle = .uninit)

/-- R166: a command whose response is an error has changed no state: nothing is saved, no mode changes. -/
def Obligations.ErrorResponsesArePrecise : Prop :=
  ∀ (i : Instr) (s t : State) (st : Byte) (payload : List Byte), exec i s = .next t →
    t.respPort = s.respPort ++ st :: payload → st ≠ 0x00 → t = { s with respPort := t.respPort }

/-- 93_implementation_defined.md U8 (log entry 9): at the reserved LIFECYCLE code no command makes a move. -/
def Obligations.ReservedLifecycleIsStuck : Prop :=
  ∀ (i : Instr) (s : State), s.engine.lifecycle = .reserved → exec i s = .fault .reservedLifecycle

/-- Each command refines the machine over functions written from the pseudocode (R100, R120, R150, R164): same engine
after it, same response. (For an INIT term with a list longer than 65535 bytes, which no frame carries, the N of the
response is the model's choice: log entry 17.) -/
def Obligations.CommandsRefineTheAbstractCore : Prop :=
  ∀ (i : Instr) (s : State), s.engine.lifecycle ≠ .reserved → tablesCanonical s.engine = true →
    ∃ t : State, exec i s = .next t ∧ tablesCanonical t.engine = true ∧
      absEngine t.engine = (absEngine s.engine).after i ∧
      t.respPort = s.respPort ++ encodeResp ((absEngine s.engine).answer i)

/-! Runs: command sequences as the host presents them (R58, R201, R205). The host that takes these actions is the
model's choice (log entry 1): each command is one send, one command step and one read. Every statement here rests on it. -/

/-- R58, R205: a command sequence runs to its end in three steps a command; the host reads one response per command, in
command order, and these and the final engine are those of the machine over functions. (Host actions: log entry 1.) -/
def Obligations.CommandSequenceRunsInOrder : Prop :=
  ∀ (is : List Instr) (after : List HostAction) (s : State), (∀ i ∈ is, i.wf = true) → waiting s →
    tablesCanonical s.engine = true →
    ∃ t : State, runsTo (3 * is.length) (withProgram s is after) t ∧ waiting t ∧ t.host = after ∧
      absEngine t.engine = (absEngine s.engine).afterAll is ∧
      t.observed = s.observed ++ ((absEngine s.engine).answers is).map encodeResp

/-- R127: the keystream after INIT(key, iv) is a fixed sequence that depends only on (key, iv); the n-th XFORM outputs
D_n XOR ks_n. (Host actions: log entry 1.) -/
def Obligations.KeystreamIsAFunctionOfPosition : Prop :=
  ∀ key iv : List Byte, lengthsOk key iv → ∃ ks : Nat → Byte, ∀ (D : List Byte) (s : State), waiting s →
    ∃ t : State, runsTo (3 * (D.length + 1)) (withProgram s (.init key iv :: D.map .xform) []) t ∧
      t.observed = s.observed ++ [0x00] :: dataFrames (D.mapIdx fun n d => d ^^^ ks (n + 1))

/-- R127 "Self-inverse": transforming the output under the same key and IV gives the input back.
(Host actions: log entry 1.) -/
def Obligations.TransformIsSelfInverse : Prop :=
  ∀ (key iv P : List Byte) (s s' : State), lengthsOk key iv → waiting s → waiting s' →
    ∃ (C : List Byte) (t t' : State), C.length = P.length ∧
      runsTo (3 * (P.length + 1)) (withProgram s (.init key iv :: P.map .xform) []) t ∧
      t.observed = s.observed ++ [0x00] :: dataFrames C ∧
      runsTo (3 * (P.length + 1)) (withProgram s' (.init key iv :: C.map .xform) []) t' ∧
      t'.observed = s'.observed ++ [0x00] :: dataFrames P

/-- R86, R128, R135: a TRANSFORM with enough capacity issues one XFORM for each input byte, in order, and nothing else;
and splitting an input into chunks gives the same outputs and the same end state as one TRANSFORM of the whole, which are
those of the plain XFORM sequence. (Host actions: log entries 1 and 11.) -/
def Obligations.ChunkedTransformIsTheSame : Prop :=
  (∀ (x : List Byte) (c : Nat) (after : List HostAction) (s : State), idle s → x.length ≤ c →
    step (withHost s (.transform x c :: after)) = .next (withProgram s (x.map .xform) after)) ∧
  ∀ (x y : List Byte) (cx cy c : Nat) (s : State), waiting s → x.length ≤ cx → y.length ≤ cy → x.length + y.length ≤ c →
    ∃ t : State, runsTo (3 * (x ++ y).length) (withProgram s ((x ++ y).map .xform) []) t ∧
      runsTo (1 + 3 * (x ++ y).length) (withHost s [.transform (x ++ y) c]) t ∧
      runsTo (1 + 3 * x.length + (1 + 3 * y.length)) (withHost s [.transform x cx, .transform y cy]) t

/-- R135: with too small an output capacity the wrapper issues no command, the CORE's state is unchanged, and the sticky
host fault is recorded. (Host actions: log entry 1.) -/
def Obligations.ShortOutputBufferIsAHostFault : Prop :=
  ∀ (input : List Byte) (capacity : Nat) (after : List HostAction) (s : State), idle s → capacity < input.length →
    step (withHost s (.transform input capacity :: after)) = .next { withHost s after with hostFault := true }

/-- R121: after INIT the n-th XFORM leaves the cursor at n mod 256. (Host actions: log entry 1.) -/
def Obligations.CursorCountsBytesAfterInit : Prop :=
  ∀ (key iv D : List Byte) (s : State), lengthsOk key iv → waiting s →
    ∃ t : State, runsTo (3 * (D.length + 1)) (withProgram s (.init key iv :: D.map .xform) []) t ∧
      t.engine.cursor.toNat = D.length % 256

/-- R129 (3): after INIT with key = iv the two tables, and the two accumulators, stay equal for every later XFORM.
(Host actions: log entry 1.) -/
def Obligations.EqualKeyAndIvKeepTablesEqual : Prop :=
  ∀ (key D : List Byte) (s : State), lengthsOk key key → waiting s →
    ∃ t : State, runsTo (3 * (D.length + 1)) (withProgram s (.init key key :: D.map .xform) []) t ∧
      t.engine.sk = t.engine.sv ∧ t.engine.accumKey = t.engine.accumIv

/-- R131, R155, R157: after WIPE the CORE answers every XFORM with its own input, and the run is a contract violation
from its first XFORM on. (Host actions: log entry 1.) -/
def Obligations.WipedStreamReturnsItsInput : Prop :=
  ∀ (D : List Byte) (s : State), waiting s →
    ∃ t : State, runsTo (3 * (D.length + 1)) (withProgram s (.wipe :: D.map .xform) []) t ∧
      t.observed = s.observed ++ [0x00] :: dataFrames D ∧ t.engine.lifecycle = .wiped ∧
      t.contractViolation = (s.contractViolation || !D.isEmpty)

/-- R156: nothing after WIPE depends on what was in the engine before it: two machines that differ in their engines
answer alike to every command sequence that begins with WIPE, and end in the same engine. (Host actions: log entry 1.) -/
def Obligations.WipeErasesEveryEarlierSecret : Prop :=
  ∀ (is : List Instr) (s s' : State), (∀ i ∈ is, i.wf = true) → waiting s → waiting s' →
    ∃ (t t' : State) (frames : List (List Byte)),
      runsTo (3 * (is.length + 1)) (withProgram s (.wipe :: is) []) t ∧
      runsTo (3 * (is.length + 1)) (withProgram s' (.wipe :: is) []) t' ∧
      t.observed = s.observed ++ frames ∧ t'.observed = s'.observed ++ frames ∧ t.engine = t'.engine

/-- R38: what the tables and indices hold in UNINIT is not observable: machines that differ only there make the same
moves, and differ at most there afterwards. (Host actions: log entry 1.) -/
def Obligations.UninitContentsAreUnobservable : Prop :=
  ∀ (s : State) (e : Engine), sameButUninit s.engine e →
    (∀ t : State, step s = .next t →
      ∃ f : Engine, sameButUninit t.engine f ∧ step { s with engine := e } = .next { t with engine := f }) ∧
    (∀ f : Fault, step s = .fault f → step { s with engine := e } = .fault f)

/-! The step. -/

/-- R77, R190, R191: a step runs the received command: with a complete frame and nothing else in the frame decoder, no
response unread and no reset asserted before it, the step is the command's meaning, its frame discarded. -/
def Obligations.StepRunsTheReceivedCommand : Prop :=
  ∀ (s : State) (i : Instr), i.wf = true → s.frameBuf = encode i → s.respPort = [] → s.host.head? ≠ some (.reset true) →
    step s = exec i { s with frameBuf := [] }

/-- R79, R182, R201, R202, 93 U2, U11, U14 (log entries 2 to 5): where the host does nothing more, the machine between
commands keeps all its state, an unread response included; it is stuck on a frame cut short, and on bytes that wait behind
an unread response; bytes of another command before the response was read are a race. -/
def Obligations.StepWaitsOrStopsByName : Prop :=
  ∀ s : State,
    (s.host = [] → s.frameBuf = [] → step s = .next s) ∧
    (s.host = [] → s.respPort = [] → decodeFrame s.frameBuf = .error .incomplete → step s = .fault .frameIncomplete) ∧
    (s.host = [] → s.respPort ≠ [] → s.frameBuf ≠ [] → step s = .fault .responseUnread) ∧
    (∀ bytes after, s.host = .send bytes :: after → s.respPort ≠ [] → step s = .fault .commandRace) ∧
    (∀ i rest, s.host.head? ≠ some (.reset true) → s.respPort = [] → decodeFrame s.frameBuf = .ok (i, rest) → rest ≠ [] →
      step s = .fault .commandRace)

/-- The host's own moves (log entries 1 and 6): bytes it sends arrive in order while no response is unread and no
complete frame waits; a response it reads leaves the port and joins what it has read. -/
def Obligations.HostSendsAndReads : Prop :=
  ∀ (s : State) (after : List HostAction),
    (∀ bytes e, s.host = .send bytes :: after → s.respPort = [] → decodeFrame s.frameBuf = .error e →
      step s = .next { s with frameBuf := s.frameBuf ++ bytes, host := after }) ∧
    (s.host = .take :: after → s.respPort ≠ [] →
      step s = .next { s with respPort := [], observed := s.observed ++ [s.respPort], host := after })

/-- R190, R191: a reset takes effect between commands, sets every piece of state to its reset value, discards a partly
received frame and unread response bytes, and does not clear the ghost flags. It lands before a received command when
the host asserts it first, else where the CORE has no command to run. (Over bytes that race it is the model's choice:
log entry 22.) -/
def Obligations.ResetSetsEveryPieceOfState : Prop :=
  ∀ (s : State) (preempt : Bool) (after : List HostAction), s.host = .reset preempt :: after →
    (preempt = true ∨ s.respPort ≠ [] ∨ ∃ e, decodeFrame s.frameBuf = .error e) →
    ∃ t : State, step s = .next t ∧
      t.engine.lifecycle = .uninit ∧ t.engine.cursor = 0xFF ∧ t.engine.accumKey = 0x00 ∧ t.engine.accumIv = 0x00 ∧
      (∀ p : Byte, Memory.read t.engine.sk p = 0x00 ∧ Memory.read t.engine.sv p = 0x00) ∧
      t.frameBuf = [] ∧ t.respPort = [] ∧
      t = { s with engine := Engine.reset, frameBuf := [], respPort := [], host := after }

/-! Invariants. -/

/-- R23, R28, R38, R131: every step keeps the tables permutations in READY and all zero in WIPED (with the accumulators
0), the reset values in UNINIT, and LIFECYCLE off its reserved code. -/
def Obligations.StepKeepsTheEngineInvariant : Prop :=
  ∀ s t : State, engineInvariant s.engine → step s = .next t → engineInvariant t.engine

/-- The state after reset meets the engine invariant, and has the values of R38's table. -/
def Obligations.ResetMeetsTheEngineInvariant : Prop :=
  engineInvariant State.reset.engine ∧ State.reset.engine.lifecycle = .uninit ∧
  (∀ p : Byte, Memory.read State.reset.engine.sk p = 0x00 ∧ Memory.read State.reset.engine.sv p = 0x00) ∧
  State.reset.engine.cursor = 0xFF ∧ State.reset.engine.accumKey = 0x00 ∧ State.reset.engine.accumIv = 0x00 ∧
  State.reset.contractViolation = false

/-- Every step keeps both tables in the canonical form, from any state whose tables have it. -/
def Obligations.StepKeepsTablesCanonical : Prop :=
  ∀ s t : State, tablesCanonical s.engine = true → step s = .next t → tablesCanonical t.engine = true

/-- R30: the ghost flags are sticky: no step clears one, reset included; and a step sets contract_violation only where
the CORE runs an XFORM while LIFECYCLE is WIPED. -/
def Obligations.GhostFlagsAreSticky : Prop :=
  ∀ s t : State, step s = .next t →
    (s.contractViolation = true → t.contractViolation = true) ∧ (s.hostFault = true → t.hostFault = true) ∧
    (s.contractViolation = false → t.contractViolation = true →
      s.engine.lifecycle = .wiped ∧ ∃ d, decodeFrame s.frameBuf = .ok (.xform d, []))

/-! Several instances, and the assembler. -/

/-- R36, R180: a step of one instance leaves every other as it was, one that has stopped included; what another instance
does next, a next state or a stop, is what it did before; and steps of different instances commute. -/
def Obligations.InstancesShareNothing : Prop :=
  ∀ (j k : Nat) (sys sys₁ : List State), j ≠ k → systemStep j sys = .next sys₁ →
    sys₁[k]? = sys[k]? ∧
    (∀ f : Fault, systemStep k sys₁ = .fault f ↔ systemStep k sys = .fault f) ∧
    (∀ sys₂ : List State, systemStep k sys₁ = .next sys₂ →
      ∃ sys₁' : List State, systemStep k sys = .next sys₁' ∧ systemStep j sys₁' = .next sys₂)

/-- R85, R86: every line expands to the commands its row gives: TRANSFORM, ENCRYPT and DECRYPT to one XFORM for each byte in
order, KEYSTREAM n to n times XFORM 00, REKEY to INIT; a TRANSFORM of `x ++ y` is that of x and then that of y; `.op` emits
its one byte bare; an INIT line emits KL and VL as computed from its lists, low byte first; and the bytes of a line
whose commands a frame can carry decode to its expansion, and to nothing more. -/
def Obligations.AssembledBytesDecodeToTheExpansion : Prop :=
  (∀ l : AsmLine, (∀ i ∈ l.expand, i.wf = true) → decodeStream l.bytes = (l.expand, [])) ∧
  (∀ bs : List Byte, (AsmLine.transform bs).expand = bs.map .xform ∧
    (AsmLine.encrypt bs).expand = bs.map .xform ∧ (AsmLine.decrypt bs).expand = bs.map .xform ∧
    (AsmLine.transform bs).bytes = bs.flatMap fun b => [0x02, b]) ∧
  (∀ x y : List Byte, (AsmLine.transform (x ++ y)).expand = (AsmLine.transform x).expand ++ (AsmLine.transform y).expand) ∧
  (∀ n : Nat, (AsmLine.keystream n).expand.length = n ∧ ∀ i ∈ (AsmLine.keystream n).expand, i = .xform 0x00) ∧
  (∀ d : Byte, (AsmLine.xform d).expand = [.xform d] ∧ (AsmLine.xform d).bytes = [0x02, d]) ∧
  (AsmLine.wipe.expand = [.wipe] ∧ AsmLine.wipe.bytes = [0x03]) ∧
  (∀ b : Byte, (AsmLine.op b).bytes = [b]) ∧
  (∀ key iv : List Byte, (AsmLine.init key iv).expand = [.init key iv] ∧ (AsmLine.rekey key iv).expand = [.init key iv]) ∧
  (∀ key iv : List Byte, key.length ≤ 65535 → iv.length ≤ 65535 →
    ∃ kLo kHi vLo vHi : Byte, kLo.toNat + 256 * kHi.toNat = key.length ∧ vLo.toNat + 256 * vHi.toNat = iv.length ∧
      (AsmLine.init key iv).bytes = 0x01 :: kLo :: kHi :: key ++ vLo :: vHi :: iv)

/-- R86, R126: `KEYSTREAM n` reads the keystream out: a TRANSFORM of n bytes from the same state outputs each of its
bytes XOR that keystream, and ends in the same engine. (Host actions: log entry 1.) -/
def Obligations.KeystreamPseudoReadsTheKeystream : Prop :=
  ∀ (P : List Byte) (s : State), waiting s → s.engine.lifecycle ≠ .uninit →
    ∃ (ks : List Byte) (t t' : State), ks.length = P.length ∧
      runsTo (3 * P.length) (withProgram s (AsmLine.keystream P.length).expand []) t ∧
      t.observed = s.observed ++ dataFrames ks ∧
      runsTo (3 * P.length) (withProgram s (AsmLine.transform P).expand []) t' ∧
      t'.observed = s.observed ++ dataFrames (P.zipWith (· ^^^ ·) ks) ∧ t.engine = t'.engine

/-! The end of a run (R202, R205). -/

/-- R182, R205: a run that is finished stays so: the machine makes no stop, the observation does not change, and the host
only reads the responses that wait. (Host actions: log entries 1 and 2.) -/
def Obligations.FinishedRunsStayFinished : Prop :=
  ∀ s : State, finished s = true →
    ∃ t : State, step s = .next t ∧ finished t = true ∧ observation t = observation s ∧ t.host = s.host.tail

/-- R202, R205: a sequence of complete frames has run to its end when the last one is answered, read or not; its observation
is the response frames in order and the final state, as the machine over functions gives them, with the ghost flags:
`contract_violation` is set exactly by an XFORM that runs in WIPED. If the last frame is cut short instead, the run is stuck
and not finished. (Host actions: log entries 1 and 3.) -/
def Obligations.RunIsFinishedWhenEveryFrameIsAnswered : Prop :=
  ∀ (is : List Instr) (last : Instr) (s : State), (∀ i ∈ is, i.wf = true) → last.wf = true → waiting s →
    tablesCanonical s.engine = true →
    (∃ t : State, runsTo (3 * is.length + 2) (withHost s (hostProgram is ++ [.send (encode last)])) t ∧
      finished t = true ∧
      (observation t).responses = s.observed ++ ((absEngine s.engine).answers (is ++ [last])).map encodeResp ∧
      absEngine (observation t).engine = (absEngine s.engine).afterAll (is ++ [last]) ∧
      (observation t).contractViolation = (s.contractViolation || (absEngine s.engine).violatesAny (is ++ [last])) ∧
      (observation t).hostFault = s.hostFault) ∧
    (∀ n, 0 < n → n < (encode last).length →
      ∃ t : State, runsTo (3 * is.length + 1) (withHost s (hostProgram is ++ [.send ((encode last).take n)])) t ∧
        finished t = false ∧ step t = .fault .frameIncomplete ∧
        (observation t).responses = s.observed ++ ((absEngine s.engine).answers is).map encodeResp)
end

