-- ==== Sys2Proof/Laws/Decode.lean ====
section
/-! SUPPORT. The laws of the frame fields: a 16-bit count read back from its two bytes, and a length-prefixed field taken
off the front of a stream. -/

namespace Sys2Proof

theorem ofLe16_le16 {n : Nat} (h : n ≤ Config.lenFieldMax) : ofLe16 (BitVec.ofNat 8 n) (BitVec.ofNat 8 (n / 256)) = n := by
  have : n ≤ 65535 := h
  simp only [ofLe16, BitVec.toNat_ofNat]
  omega

theorem le16_ofLe16 (lo hi : Byte) : le16 (ofLe16 lo hi) = [lo, hi] := by
  have hlo := lo.isLt
  have hhi := hi.isLt
  have h1 : BitVec.ofNat 8 (lo.toNat + 256 * hi.toNat) = lo := by
    apply BitVec.eq_of_toNat_eq
    rw [BitVec.toNat_ofNat]
    omega
  have h2 : BitVec.ofNat 8 ((lo.toNat + 256 * hi.toNat) / 256) = hi := by
    apply BitVec.eq_of_toNat_eq
    rw [BitVec.toNat_ofNat]
    omega
  rw [le16, ofLe16, h1, h2]

theorem ofLe16_le (lo hi : Byte) : ofLe16 lo hi ≤ Config.lenFieldMax := by
  have hlo := lo.isLt
  have hhi := hi.isLt
  show lo.toNat + 256 * hi.toNat ≤ 65535
  omega

theorem ofLe16_toHalf (n : Half) :
    BitVec.ofNat 16 (ofLe16 (BitVec.ofNat 8 n.toNat) (BitVec.ofNat 8 (n.toNat / 256))) = n := by
  have hn : n.toNat ≤ Config.lenFieldMax := Nat.le_of_lt_succ n.isLt
  rw [ofLe16_le16 hn, BitVec.ofNat_toNat, BitVec.setWidth_eq]

/-- A field written with its length is taken off whole (R73, R74). -/
theorem takeField_le16 {bs : List Byte} (h : fitsLenField bs = true) (rest : List Byte) :
    takeField (le16 bs.length ++ (bs ++ rest)) = .ok (bs, rest) := by
  have hb : bs.length ≤ Config.lenFieldMax := of_decide_eq_true h
  simp [le16, takeField, ofLe16_le16 hb]

/-- What is taken off was written with its length in front (R73, R74). -/
theorem takeField_ok {bs field rest : List Byte} (h : takeField bs = .ok (field, rest)) :
    bs = le16 field.length ++ (field ++ rest) ∧ fitsLenField field = true := by
  match bs, h with
  | lo :: hi :: tl, h =>
    by_cases hl : ofLe16 lo hi ≤ tl.length
    · simp only [takeField, if_pos hl, Except.ok.injEq, Prod.mk.injEq] at h
      obtain ⟨rfl, rfl⟩ := h
      have hlen : (tl.take (ofLe16 lo hi)).length = ofLe16 lo hi := List.length_take_of_le hl
      refine ⟨?_, by simpa [fitsLenField, hlen, hl] using ofLe16_le lo hi⟩
      rw [hlen, le16_ofLe16]
      simp
    · simp [takeField, hl] at h
  | [], h => exact absurd h (by simp [takeField])
  | [_], h => exact absurd h (by simp [takeField])

/-- A stream shorter than its field is incomplete (R79). -/
theorem takeField_short {lo hi : Byte} {bs : List Byte} (h : bs.length < ofLe16 lo hi) :
    takeField (lo :: hi :: bs) = .error .incomplete := by
  rw [takeField, if_neg (by omega)]

theorem takeField_error {bs : List Byte} {e : FrameFault} (h : takeField bs = .error e) : e = .incomplete := by
  unfold takeField at h
  split at h
  · split at h
    · simp at h
    · simpa using h.symm
  · simpa using h.symm

/-! The decoder by the first byte of a frame (R71). -/

@[simp] theorem decodeFrame_nil : decodeFrame [] = .error .empty := rfl
@[simp] theorem decodeFrame_init (bs : List Byte) : decodeFrame (0x01 :: bs) = decodeInit bs := rfl
@[simp] theorem decodeFrame_xform (bs : List Byte) : decodeFrame (0x02 :: bs) = decodeData bs := rfl
@[simp] theorem decodeFrame_wipe (bs : List Byte) : decodeFrame (0x03 :: bs) = .ok (.wipe, bs) := rfl

theorem decodeFrame_reserved {op : Byte} (h : isReservedOpcode op = true) (bs : List Byte) :
    decodeFrame (op :: bs) = .ok (.reserved op, bs) := by
  simp only [isReservedOpcode, Bool.and_eq_true, bne_iff_ne, ne_eq] at h
  obtain ⟨⟨h1, h2⟩, h3⟩ := h
  rw [decodeFrame, if_neg h1, if_neg h2, if_neg h3]

theorem encode_ne_nil (i : Instr) : encode i ≠ [] := by cases i <;> simp [encode]

@[simp] theorem encodeResp_ne_nil (r : Resp) : encodeResp r ≠ [] := by cases r <;> simp [encodeResp]

end Sys2Proof
end

