-- ==== Sys2Proof/Laws/State.lean ====
section
/-! SUPPORT. One lemma per field per update of State and Engine, each true by rfl. -/

namespace Sys2Proof.Machine

/-! Replacing the engine. -/

@[simp] theorem State.withEngine_engine (s : State) (e : Engine) : (s.withEngine e).engine = e := rfl
@[simp] theorem State.withEngine_contractViolation (s : State) (e : Engine) :
    (s.withEngine e).contractViolation = s.contractViolation := rfl
@[simp] theorem State.withEngine_hostFault (s : State) (e : Engine) : (s.withEngine e).hostFault = s.hostFault := rfl
@[simp] theorem State.withEngine_frameBuf (s : State) (e : Engine) : (s.withEngine e).frameBuf = s.frameBuf := rfl
@[simp] theorem State.withEngine_respPort (s : State) (e : Engine) : (s.withEngine e).respPort = s.respPort := rfl
@[simp] theorem State.withEngine_host (s : State) (e : Engine) : (s.withEngine e).host = s.host := rfl
@[simp] theorem State.withEngine_observed (s : State) (e : Engine) : (s.withEngine e).observed = s.observed := rfl

/-! Responding. -/

@[simp] theorem State.respond_engine (s : State) (r : Resp) : (s.respond r).engine = s.engine := rfl
@[simp] theorem State.respond_contractViolation (s : State) (r : Resp) :
    (s.respond r).contractViolation = s.contractViolation := rfl
@[simp] theorem State.respond_hostFault (s : State) (r : Resp) : (s.respond r).hostFault = s.hostFault := rfl
@[simp] theorem State.respond_frameBuf (s : State) (r : Resp) : (s.respond r).frameBuf = s.frameBuf := rfl
@[simp] theorem State.respond_respPort (s : State) (r : Resp) : (s.respond r).respPort = s.respPort ++ encodeResp r := rfl
@[simp] theorem State.respond_host (s : State) (r : Resp) : (s.respond r).host = s.host := rfl
@[simp] theorem State.respond_observed (s : State) (r : Resp) : (s.respond r).observed = s.observed := rfl

/-! Setting the ghost flags. -/

@[simp] theorem State.noteXform_engine (s : State) : s.noteXform.engine = s.engine := rfl
@[simp] theorem State.noteXform_contractViolation (s : State) :
    s.noteXform.contractViolation = (s.contractViolation || s.engine.lifecycle == .wiped) := rfl
@[simp] theorem State.noteXform_hostFault (s : State) : s.noteXform.hostFault = s.hostFault := rfl
@[simp] theorem State.noteXform_frameBuf (s : State) : s.noteXform.frameBuf = s.frameBuf := rfl
@[simp] theorem State.noteXform_respPort (s : State) : s.noteXform.respPort = s.respPort := rfl
@[simp] theorem State.noteXform_host (s : State) : s.noteXform.host = s.host := rfl
@[simp] theorem State.noteXform_observed (s : State) : s.noteXform.observed = s.observed := rfl

@[simp] theorem State.noteHostFault_engine (s : State) : s.noteHostFault.engine = s.engine := rfl
@[simp] theorem State.noteHostFault_contractViolation (s : State) :
    s.noteHostFault.contractViolation = s.contractViolation := rfl
@[simp] theorem State.noteHostFault_hostFault (s : State) : s.noteHostFault.hostFault = true := rfl
@[simp] theorem State.noteHostFault_frameBuf (s : State) : s.noteHostFault.frameBuf = s.frameBuf := rfl
@[simp] theorem State.noteHostFault_respPort (s : State) : s.noteHostFault.respPort = s.respPort := rfl
@[simp] theorem State.noteHostFault_host (s : State) : s.noteHostFault.host = s.host := rfl
@[simp] theorem State.noteHostFault_observed (s : State) : s.noteHostFault.observed = s.observed := rfl

/-! Reset. -/

@[simp] theorem State.applyReset_engine (s : State) : s.applyReset.engine = Engine.reset := rfl
@[simp] theorem State.applyReset_contractViolation (s : State) : s.applyReset.contractViolation = s.contractViolation := rfl
@[simp] theorem State.applyReset_hostFault (s : State) : s.applyReset.hostFault = s.hostFault := rfl
@[simp] theorem State.applyReset_frameBuf (s : State) : s.applyReset.frameBuf = [] := rfl
@[simp] theorem State.applyReset_respPort (s : State) : s.applyReset.respPort = [] := rfl
@[simp] theorem State.applyReset_host (s : State) : s.applyReset.host = s.host := rfl
@[simp] theorem State.applyReset_observed (s : State) : s.applyReset.observed = s.observed := rfl

/-! The update step of XFORM. -/

@[simp] theorem Engine.advance_cursor (e : Engine) : e.advance.cursor = e.cursor + 1 := rfl
@[simp] theorem Engine.advance_lifecycle (e : Engine) : e.advance.lifecycle = e.lifecycle := rfl
@[simp] theorem Engine.advance_accumKey (e : Engine) :
    e.advance.accumKey = e.accumKey + Memory.read e.sk (e.cursor + 1) := rfl
@[simp] theorem Engine.advance_accumIv (e : Engine) :
    e.advance.accumIv = e.accumIv + Memory.read e.sv (e.cursor + 1) := rfl
@[simp] theorem Engine.advance_sk (e : Engine) :
    e.advance.sk = Memory.swap e.sk (e.cursor + 1) (e.accumKey + Memory.read e.sk (e.cursor + 1)) := rfl
@[simp] theorem Engine.advance_sv (e : Engine) :
    e.advance.sv = Memory.swap e.sv (e.cursor + 1) (e.accumIv + Memory.read e.sv (e.cursor + 1)) := rfl

/-! The engine after INIT, WIPE and reset. -/

@[simp] theorem Engine.keyed_lifecycle (key iv : List Byte) : (Engine.keyed key iv).lifecycle = .ready := rfl
@[simp] theorem Engine.keyed_cursor (key iv : List Byte) : (Engine.keyed key iv).cursor = 0x00 := rfl
@[simp] theorem Engine.keyed_accumKey (key iv : List Byte) : (Engine.keyed key iv).accumKey = 0x00 := rfl
@[simp] theorem Engine.keyed_accumIv (key iv : List Byte) : (Engine.keyed key iv).accumIv = 0x00 := rfl
@[simp] theorem Engine.keyed_sk (key iv : List Byte) : (Engine.keyed key iv).sk = ksa key := by simp only [Engine.keyed]
@[simp] theorem Engine.keyed_sv (key iv : List Byte) : (Engine.keyed key iv).sv = ksa iv := by simp only [Engine.keyed]
@[simp] theorem Engine.wiped_lifecycle : Engine.wiped.lifecycle = .wiped := rfl
@[simp] theorem Engine.wiped_cursor : Engine.wiped.cursor = 0xFF := rfl
@[simp] theorem Engine.wiped_accumKey : Engine.wiped.accumKey = 0x00 := rfl
@[simp] theorem Engine.wiped_accumIv : Engine.wiped.accumIv = 0x00 := rfl
@[simp] theorem Engine.reset_lifecycle : Engine.reset.lifecycle = .uninit := rfl

end Sys2Proof.Machine
end

