-- ==== Sys2Proof/Laws/Exec.lean ====
section
/-! SUPPORT. What a command can do and what a step can do, each said once: later proofs cite these and do not unfold a
meaning or the step. -/

namespace Sys2Proof.Machine

theorem Lifecycle.legal_iff {l : Lifecycle} : l.legal = true ↔ l ≠ .reserved := by cases l <;> decide

theorem State.whenLegal_of_legal {s : State} {act : Host.Outcome State Fault Refusal}
    (h : s.engine.lifecycle ≠ .reserved) : s.whenLegal act = act := by
  rw [State.whenLegal, if_pos (Lifecycle.legal_iff.2 h)]

theorem State.whenLegal_of_reserved {s : State} {act : Host.Outcome State Fault Refusal}
    (h : s.engine.lifecycle = .reserved) : s.whenLegal act = .fault .reservedLifecycle := by
  rw [State.whenLegal, if_neg (by rw [h]; decide)]

theorem keyLengthOk_iff {n : Nat} : keyLengthOk n = true ↔ 1 ≤ n ∧ n ≤ 256 := by
  simp only [keyLengthOk, Bool.and_eq_true, decide_eq_true_eq]
  exact Iff.rfl

theorem ivLengthOk_iff {n : Nat} : ivLengthOk n = true ↔ 1 ≤ n ∧ n ≤ 256 := by
  simp only [ivLengthOk, Bool.and_eq_true, decide_eq_true_eq]
  exact Iff.rfl

/-- What a command does to the engine and the ghost flag, and what it answers, case by case (R80). -/
inductive CommandEffect (e : Engine) : Instr → Engine → Bool → Resp → Prop
  | initBadKey (key iv : List Byte) (h : ¬(1 ≤ key.length ∧ key.length ≤ 256)) :
      CommandEffect e (.init key iv) e false (.invalidKeySize (BitVec.ofNat 16 key.length))
  | initBadIv (key iv : List Byte) (h : 1 ≤ key.length ∧ key.length ≤ 256) (h' : ¬(1 ≤ iv.length ∧ iv.length ≤ 256)) :
      CommandEffect e (.init key iv) e false (.invalidIvSize (BitVec.ofNat 16 iv.length))
  | initOk (key iv : List Byte) (h : 1 ≤ key.length ∧ key.length ≤ 256) (h' : 1 ≤ iv.length ∧ iv.length ≤ 256) :
      CommandEffect e (.init key iv) (Engine.keyed key iv) false .ok
  | xformNotReady (d : Byte) (h : e.lifecycle = .uninit) : CommandEffect e (.xform d) e false .notReady
  | xformRuns (d : Byte) (h : e.lifecycle ≠ .uninit) :
      CommandEffect e (.xform d) e.advance (e.lifecycle == .wiped) (.okData (d ^^^ e.advance.keystream))
  | wipe : CommandEffect e .wipe Engine.wiped false .ok
  | reserved (op : Byte) : CommandEffect e (.reserved op) e false .illegalCommand

/-- The state a command's effect leaves: engine, ghost flag and response port; every other field is as before. -/
def State.effect (s : State) (e : Engine) (violation : Bool) (r : Resp) : State :=
  { s with engine := e, contractViolation := s.contractViolation || violation, respPort := s.respPort ++ encodeResp r }

@[simp] theorem State.effect_engine (s : State) (e : Engine) (v : Bool) (r : Resp) : (s.effect e v r).engine = e := rfl
@[simp] theorem State.effect_contractViolation (s : State) (e : Engine) (v : Bool) (r : Resp) :
    (s.effect e v r).contractViolation = (s.contractViolation || v) := rfl
@[simp] theorem State.effect_hostFault (s : State) (e : Engine) (v : Bool) (r : Resp) :
    (s.effect e v r).hostFault = s.hostFault := rfl
@[simp] theorem State.effect_frameBuf (s : State) (e : Engine) (v : Bool) (r : Resp) :
    (s.effect e v r).frameBuf = s.frameBuf := rfl
@[simp] theorem State.effect_respPort (s : State) (e : Engine) (v : Bool) (r : Resp) :
    (s.effect e v r).respPort = s.respPort ++ encodeResp r := rfl
@[simp] theorem State.effect_host (s : State) (e : Engine) (v : Bool) (r : Resp) : (s.effect e v r).host = s.host := rfl
@[simp] theorem State.effect_observed (s : State) (e : Engine) (v : Bool) (r : Resp) :
    (s.effect e v r).observed = s.observed := rfl

theorem State.respond_eq_effect (s : State) (r : Resp) : s.respond r = s.effect s.engine false r := by
  simp [State.respond, State.effect]

/-- A command at a legal LIFECYCLE has one effect. -/
theorem exec_of_legal (i : Instr) {s : State} (h : s.engine.lifecycle ≠ .reserved) :
    ∃ e v r, CommandEffect s.engine i e v r ∧ exec i s = .next (s.effect e v r) := by
  cases i with
  | init key iv =>
    simp only [exec, execInit, State.whenLegal_of_legal h, State.raise, Bool.not_eq_true', Bool.eq_false_iff, ne_eq,
      keyLengthOk_iff, ivLengthOk_iff]
    by_cases hk : 1 ≤ key.length ∧ key.length ≤ 256
    · by_cases hv : 1 ≤ iv.length ∧ iv.length ≤ 256
      · exact ⟨_, _, _, .initOk key iv hk hv, by simp [hk, hv, State.respond, State.withEngine, State.effect]⟩
      · exact ⟨_, _, _, .initBadIv key iv hk hv, by simp [hk, hv, State.respond_eq_effect]⟩
    · exact ⟨_, _, _, .initBadKey key iv hk, by simp [hk, State.respond_eq_effect]⟩
  | xform d =>
    simp only [exec, execXform, State.whenLegal_of_legal h, State.raise]
    by_cases hu : s.engine.lifecycle = .uninit
    · exact ⟨_, _, _, .xformNotReady d hu, by simp [hu, State.respond_eq_effect]⟩
    · exact ⟨_, _, _, .xformRuns d hu, by
        simp [hu, State.respond, State.withEngine, State.effect, State.noteXform]⟩
  | wipe =>
    exact ⟨_, _, _, .wipe, by
      simp [exec, execWipe, State.whenLegal_of_legal h, State.respond, State.withEngine, State.effect]⟩
  | reserved op =>
    exact ⟨_, _, _, .reserved op, by
      simp [exec, execReserved, State.whenLegal_of_legal h, State.raise, State.respond_eq_effect]⟩

/-- A command at the reserved LIFECYCLE code makes no move (93 U8). -/
theorem exec_of_reserved (i : Instr) {s : State} (h : s.engine.lifecycle = .reserved) :
    exec i s = .fault .reservedLifecycle := by
  cases i <;> exact State.whenLegal_of_reserved h

/-- A command never ends in a refusal. -/
theorem exec_not_refused (i : Instr) (s : State) (r : Refusal) : exec i s ≠ .refused r := by
  by_cases h : s.engine.lifecycle = .reserved
  · simp [exec_of_reserved i h]
  · obtain ⟨e, v, q, -, he⟩ := exec_of_legal i h
    simp [he]

/-- What is known when a command answers a next state. -/
theorem exec_next {i : Instr} {s t : State} (h : exec i s = .next t) :
    s.engine.lifecycle ≠ .reserved ∧ ∃ e v r, CommandEffect s.engine i e v r ∧ t = s.effect e v r := by
  have hl : s.engine.lifecycle ≠ .reserved := fun hr => by simp [exec_of_reserved i hr] at h
  obtain ⟨e, v, r, hc, he⟩ := exec_of_legal i hl
  rw [he, Host.Outcome.next.injEq] at h
  exact ⟨hl, e, v, r, hc, h.symm⟩

/-- The effect of a command is determined by the command and the engine. -/
theorem CommandEffect.unique {e e₁ e₂ : Engine} {i : Instr} {v₁ v₂ : Bool} {r₁ r₂ : Resp}
    (h₁ : CommandEffect e i e₁ v₁ r₁) (h₂ : CommandEffect e i e₂ v₂ r₂) : e₁ = e₂ ∧ v₁ = v₂ ∧ r₁ = r₂ := by
  cases h₁ <;> cases h₂ <;> first | contradiction | exact ⟨rfl, rfl, rfl⟩

/-! The host's turn and the step. -/

theorem hostTurn_nil {s : State} (h : s.host = []) (o : Host.Outcome State Fault Refusal) : hostTurn o s = o := by
  simp [hostTurn, h]

theorem hostTurn_cons {s : State} {a : HostAction} {rest : List HostAction} (h : s.host = a :: rest)
    (o : Host.Outcome State Fault Refusal) : hostTurn o s = hostAct a { s with host := rest } := by
  simp [hostTurn, h]

/-- What one host action can do: bytes received, a response read, a reset, the wrapper, or a race. -/
theorem hostAct_next {a : HostAction} {s t : State} (h : hostAct a s = .next t) :
    (∃ bytes, a = .send bytes ∧ s.respPort = [] ∧ t = { s with frameBuf := s.frameBuf ++ bytes }) ∨
    (a = .take ∧ t = s.hostTake) ∨
    (∃ b, a = .reset b ∧ t = s.applyReset) ∨
    (∃ input cap, a = .transform input cap ∧ t = s.hostTransform input cap) := by
  cases a with
  | send bytes =>
    simp only [hostAct, State.hostSend] at h
    split at h
    · next hr => exact .inl ⟨bytes, rfl, hr, (Host.Outcome.next.inj h).symm⟩
    · cases h
  | take => exact .inr (.inl ⟨rfl, (Host.Outcome.next.inj h).symm⟩)
  | reset b => exact .inr (.inr (.inl ⟨b, rfl, (Host.Outcome.next.inj h).symm⟩))
  | transform input cap => exact .inr (.inr (.inr ⟨input, cap, rfl, (Host.Outcome.next.inj h).symm⟩))

/-- What one step can do: stay idle, run the received command, or take the host's next action. -/
theorem step_next {s t : State} (h : step s = .next t) :
    t = s ∨
    (∃ i, s.respPort = [] ∧ decodeFrame s.frameBuf = .ok (i, []) ∧ exec i { s with frameBuf := [] } = .next t) ∨
    (∃ a rest, s.host = a :: rest ∧ hostAct a { s with host := rest } = .next t) := by
  have key : ∀ o, hostTurn o s = .next t → (o = .next t → t = s) →
      t = s ∨ ∃ a rest, s.host = a :: rest ∧ hostAct a { s with host := rest } = .next t := by
    intro o ho hs
    match hh : s.host with
    | [] => exact .inl (hs (by rwa [hostTurn_nil hh] at ho))
    | a :: rest => exact .inr ⟨a, rest, rfl, by rwa [hostTurn_cons hh] at ho⟩
  have idleCase : ∀ o, hostTurn o s = .next t → (o = .next t → t = s) →
      t = s ∨ (∃ i, s.respPort = [] ∧ decodeFrame s.frameBuf = .ok (i, []) ∧ exec i { s with frameBuf := [] } = .next t) ∨
        (∃ a rest, s.host = a :: rest ∧ hostAct a { s with host := rest } = .next t) :=
    fun o ho hs => (key o ho hs).imp_right .inr
  unfold step at h
  split at h
  · exact idleCase _ h fun ho => (Host.Outcome.next.inj ho).symm
  · unfold coreTurn at h
    split at h
    · next hr =>
      split at h
      · next i hd => exact .inr (.inl ⟨i, hr, hd, h⟩)
      · cases h
      · exact idleCase _ h fun ho => (Host.Outcome.next.inj ho).symm
      · exact idleCase _ h nofun
    · refine idleCase _ h fun ho => ?_
      split at ho
      · exact (Host.Outcome.next.inj ho).symm
      · cases ho

/-- A received command runs, unless the host resets first (R77, R191). -/
theorem step_command {s : State} {i : Instr} (hp : s.resetPreempts = false) (hr : s.respPort = [])
    (hd : decodeFrame s.frameBuf = .ok (i, [])) : step s = exec i { s with frameBuf := [] } := by
  simp [step, hp, coreTurn, hr, hd]

/-- While a response is unread, the host has its turn (R201). -/
theorem step_unread {s : State} (hp : s.resetPreempts = false) (hr : s.respPort ≠ []) :
    step s = hostTurn (if s.frameBuf = [] then .next s else .fault .responseUnread) s := by
  simp [step, hp, coreTurn, hr]

/-- Between commands, with nothing received, the host has its turn and the CORE keeps all its state (R182). -/
theorem step_idle {s : State} (hf : s.frameBuf = []) : step s = hostTurn (.next s) s := by
  by_cases hp : s.resetPreempts = true
  · simp [step, hp]
  · by_cases hr : s.respPort = [] <;> simp [step, hp, coreTurn, hr, hf, decodeFrame]

end Sys2Proof.Machine
end

