-- ==== Sys2Proof/Laws/Memory.lean ====
section
/-! SUPPORT. The laws of a table's memory: read after write, the canonical form and that every operation keeps it, and
that canonical memories which read alike are equal. -/

namespace Sys2Proof.Machine

theorem Memory.wfFrom_cons {lo a : Nat} {v : Byte} {m : Memory} :
    Memory.wfFrom lo ((a, v) :: m) = true ↔
      lo ≤ a ∧ a < Config.tableSize ∧ v ≠ Memory.unlisted ∧ Memory.wfFrom (a + 1) m = true := by
  simp [Memory.wfFrom, and_assoc]

theorem Memory.wfFrom_mono {lo lo' : Nat} (h : lo' ≤ lo) :
    ∀ {m : Memory}, Memory.wfFrom lo m = true → Memory.wfFrom lo' m = true
  | [], _ => rfl
  | (a, v) :: m, hm => by
    rw [Memory.wfFrom_cons] at hm ⊢
    exact ⟨h.trans hm.1, hm.2⟩

theorem Memory.readAt_below {lo k : Nat} (h : k < lo) :
    ∀ {m : Memory}, Memory.wfFrom lo m = true → Memory.readAt m k = Memory.unlisted
  | [], _ => rfl
  | (a, v) :: m, hm => by
    obtain ⟨h1, -, -, h4⟩ := Memory.wfFrom_cons.1 hm
    rw [Memory.readAt, if_neg (by omega)]
    exact Memory.readAt_below (by omega) h4

theorem Memory.writeAt_wfFrom {k : Nat} {v : Byte} (hk : k < Config.tableSize) :
    ∀ {lo : Nat} {m : Memory}, lo ≤ k → Memory.wfFrom lo m = true → Memory.wfFrom lo (Memory.writeAt m k v) = true
  | lo, [], hlo, _ => by
    by_cases hv : v = Memory.unlisted
    · simp [Memory.writeAt, hv, Memory.wfFrom]
    · simp [Memory.writeAt, hv, hlo, hk, Memory.wfFrom]
  | lo, (a, w) :: m, hlo, hm => by
    obtain ⟨h1, h2, h3, h4⟩ := Memory.wfFrom_cons.1 hm
    rcases lt_trichotomy k a with hka | rfl | hak
    · by_cases hv : v = Memory.unlisted
      · simpa [Memory.writeAt, hka, hv] using hm
      · simp only [Memory.writeAt, hka, hv, if_true, if_false]
        exact Memory.wfFrom_cons.2 ⟨hlo, hk, hv, Memory.wfFrom_cons.2 ⟨hka, h2, h3, h4⟩⟩
    · by_cases hv : v = Memory.unlisted
      · simpa [Memory.writeAt, hv] using Memory.wfFrom_mono (by omega) h4
      · simpa [Memory.writeAt, hv] using Memory.wfFrom_cons.2 ⟨hlo, hk, hv, h4⟩
    · simp only [Memory.writeAt, if_neg (show ¬ k < a by omega), if_neg (show ¬ k = a by omega)]
      exact Memory.wfFrom_cons.2 ⟨h1, h2, h3, Memory.writeAt_wfFrom hk hak h4⟩

theorem Memory.readAt_writeAt {k : Nat} {v : Byte} (k' : Nat) :
    ∀ {lo : Nat} {m : Memory}, Memory.wfFrom lo m = true →
      Memory.readAt (Memory.writeAt m k v) k' = if k = k' then v else Memory.readAt m k'
  | lo, [], _ => by
    by_cases hv : v = Memory.unlisted <;> simp [Memory.writeAt, hv, Memory.readAt]
  | lo, (a, w) :: m, hm => by
    obtain ⟨h1, h2, h3, h4⟩ := Memory.wfFrom_cons.1 hm
    rcases lt_trichotomy k a with hka | rfl | hak
    · by_cases hv : v = Memory.unlisted
      · simp only [Memory.writeAt, hka, hv, if_true]
        split
        · next hkk => exact Memory.readAt_below (by omega) (Memory.wfFrom_cons.2 ⟨le_refl a, h2, h3, h4⟩)
        · rfl
      · simp [Memory.writeAt, hka, hv, Memory.readAt]
    · by_cases hv : v = Memory.unlisted
      · simp only [Memory.writeAt, lt_irrefl, hv, if_true, if_false, Memory.readAt]
        split
        · next hkk => exact Memory.readAt_below (by omega) h4
        · rfl
      · simp only [Memory.writeAt, lt_irrefl, hv, if_true, if_false, Memory.readAt]
        split <;> rfl
    · simp only [Memory.writeAt, if_neg (show ¬ k < a by omega), if_neg (show ¬ k = a by omega), Memory.readAt]
      split
      · next hak' => rw [if_neg (by omega)]
      · exact Memory.readAt_writeAt k' h4

/-- Canonical memories that read alike at every index are equal. -/
theorem Memory.ext_readAt : ∀ {lo : Nat} {m n : Memory}, Memory.wfFrom lo m = true → Memory.wfFrom lo n = true →
    (∀ k, Memory.readAt m k = Memory.readAt n k) → m = n
  | _, [], [], _, _, _ => rfl
  | _, [], (b, w) :: n, _, hn, h => by
    have := h b
    simp only [Memory.readAt, if_true] at this
    exact absurd this.symm (Memory.wfFrom_cons.1 hn).2.2.1
  | _, (a, v) :: m, [], hm, _, h => by
    have := h a
    simp only [Memory.readAt, if_true] at this
    exact absurd this (Memory.wfFrom_cons.1 hm).2.2.1
  | _, (a, v) :: m, (b, w) :: n, hm, hn, h => by
    obtain ⟨-, -, hv, hm'⟩ := Memory.wfFrom_cons.1 hm
    obtain ⟨-, -, hw, hn'⟩ := Memory.wfFrom_cons.1 hn
    have ha := h a
    have hb := h b
    simp only [Memory.readAt, if_true] at ha hb
    have hab : a = b := by
      rcases lt_trichotomy a b with hlt | heq | hgt
      · rw [if_neg (by omega), Memory.readAt_below (by omega) hn'] at ha
        exact absurd ha hv
      · exact heq
      · rw [if_neg (by omega), Memory.readAt_below (by omega) hm'] at hb
        exact absurd hb.symm hw
    subst hab
    rw [if_pos rfl] at ha
    subst ha
    congr 1
    refine Memory.ext_readAt hm' hn' fun k => ?_
    by_cases hk : a = k
    · rw [Memory.readAt_below (by omega) hm', Memory.readAt_below (by omega) hn']
    · simpa [Memory.readAt, hk] using h k

/-! The same laws for the operations of R10. -/

theorem Memory.write_wf {m : Memory} (p v : Byte) (h : Memory.wf m = true) : Memory.wf (Memory.write m p v) = true :=
  Memory.writeAt_wfFrom p.isLt (Nat.zero_le _) h

theorem Memory.read_write {m : Memory} (h : Memory.wf m = true) (p v q : Byte) :
    Memory.read (Memory.write m p v) q = if p = q then v else Memory.read m q := by
  simp only [Memory.read, Memory.write, Memory.readAt_writeAt _ h, BitVec.toNat_inj]

theorem Memory.swap_wf {m : Memory} (p q : Byte) (h : Memory.wf m = true) : Memory.wf (Memory.swap m p q) = true :=
  Memory.write_wf _ _ (Memory.write_wf _ _ h)

/-- A swap exchanges the two entries and leaves every other entry alone (R10). -/
theorem Memory.read_swap {m : Memory} (h : Memory.wf m = true) (p q r : Byte) :
    Memory.read (Memory.swap m p q) r =
      if r = q then Memory.read m p else if r = p then Memory.read m q else Memory.read m r := by
  simp only [Memory.swap, Memory.read_write (Memory.write_wf _ _ h), Memory.read_write h, eq_comm (a := r)]

theorem Memory.readAt_outside {m : Memory} {lo k : Nat} (h : Memory.wfFrom lo m = true) (hk : Config.tableSize ≤ k) :
    Memory.readAt m k = Memory.unlisted := by
  induction m generalizing lo with
  | nil => rfl
  | cons c m ih =>
    obtain ⟨a, v⟩ := c
    obtain ⟨-, h2, -, h4⟩ := Memory.wfFrom_cons.1 h
    rw [Memory.readAt, if_neg (by omega)]
    exact ih h4

/-- Canonical tables that read alike at every Byte are equal. -/
theorem Memory.ext_read {m n : Memory} (hm : Memory.wf m = true) (hn : Memory.wf n = true)
    (h : ∀ p, Memory.read m p = Memory.read n p) : m = n := by
  refine Memory.ext_readAt hm hn fun k => ?_
  by_cases hk : k < Config.tableSize
  · simpa [Memory.read, Nat.mod_eq_of_lt (show k < 256 from hk)] using h (BitVec.ofNat 8 k)
  · rw [Memory.readAt_outside hm (by omega), Memory.readAt_outside hn (by omega)]

/-! Filling a table. -/

theorem Memory.fillList_wfFrom (f : Byte → Byte) (n lo : Nat) (h : lo + n ≤ Config.tableSize) :
    Memory.wfFrom lo ((List.range' lo n).filterMap fun a =>
      if f (BitVec.ofNat 8 a) = Memory.unlisted then none else some (a, f (BitVec.ofNat 8 a))) = true := by
  induction n generalizing lo with
  | zero => rfl
  | succ n ih =>
    have ih' := ih (lo + 1) (by omega)
    rw [List.range'_succ, List.filterMap_cons]
    by_cases hv : f (BitVec.ofNat 8 lo) = Memory.unlisted
    · simpa [hv] using Memory.wfFrom_mono (by omega) ih'
    · simpa [hv] using Memory.wfFrom_cons.2 ⟨le_refl lo, by omega, hv, ih'⟩

theorem Memory.fillList_readAt (f : Byte → Byte) (n lo k : Nat) (h : lo + n ≤ Config.tableSize)
    (hk : lo ≤ k ∧ k < lo + n) :
    Memory.readAt ((List.range' lo n).filterMap fun a =>
      if f (BitVec.ofNat 8 a) = Memory.unlisted then none else some (a, f (BitVec.ofNat 8 a))) k
      = f (BitVec.ofNat 8 k) := by
  induction n generalizing lo with
  | zero => omega
  | succ n ih =>
    rw [List.range'_succ, List.filterMap_cons]
    by_cases hlk : lo = k
    · subst hlk
      by_cases hv : f (BitVec.ofNat 8 lo) = Memory.unlisted
      · simpa [hv] using Memory.readAt_below (Nat.lt_succ_self lo) (Memory.fillList_wfFrom f n (lo + 1) (by omega))
      · simp [hv, Memory.readAt]
    · have ih' := ih (lo + 1) (by omega) (by omega)
      by_cases hv : f (BitVec.ofNat 8 lo) = Memory.unlisted
      · simpa [hv] using ih'
      · simpa [hv, Memory.readAt, hlk] using ih'

theorem Memory.fill_wf (f : Byte → Byte) : Memory.wf (Memory.fill f) = true := by
  simpa [Memory.fill, Memory.wf, Config.tableSize, List.range_eq_range'] using Memory.fillList_wfFrom f 256 0 (le_refl 256)

@[simp] theorem Memory.read_fill (f : Byte → Byte) (p : Byte) : Memory.read (Memory.fill f) p = f p := by
  have := Memory.fillList_readAt f 256 0 p.toNat (le_refl 256) ⟨Nat.zero_le _, by simpa using p.isLt⟩
  simpa [Memory.read, Memory.fill, Config.tableSize, List.range_eq_range'] using this

@[simp] theorem Memory.read_nil (p : Byte) : Memory.read [] p = 0x00 := rfl

theorem Memory.nil_wf : Memory.wf [] = true := rfl

/-- A table filled with zeros lists nothing. -/
@[simp] theorem Memory.fill_zero : (Memory.fill fun _ => 0x00) = [] :=
  Memory.ext_read (Memory.fill_wf _) Memory.nil_wf fun p => by simp

@[simp] theorem Engine.wiped_sk : Engine.wiped.sk = [] := by simp only [Engine.wiped, Memory.fill_zero]

@[simp] theorem Engine.wiped_sv : Engine.wiped.sv = [] := by simp only [Engine.wiped, Memory.fill_zero]

/-- Swaps of a table of zeros leave it so (R131). -/
@[simp] theorem Memory.swap_nil (p q : Byte) : Memory.swap [] p q = [] :=
  Memory.ext_read (Memory.swap_wf p q Memory.nil_wf) Memory.nil_wf fun r => by simp [Memory.read_swap Memory.nil_wf]

/-! The key schedule keeps the canonical form. -/

theorem ksaStep_wf (K : List Byte) (tj : Memory × Byte) (i : Byte) (h : Memory.wf tj.1 = true) :
    Memory.wf (ksaStep K tj i).1 = true := Memory.swap_wf _ _ h

theorem ksaFold_wf (K : List Byte) (is : List Byte) :
    ∀ tj : Memory × Byte, Memory.wf tj.1 = true → Memory.wf (is.foldl (ksaStep K) tj).1 = true := by
  induction is with
  | nil => exact fun _ h => h
  | cons i is ih => exact fun tj h => ih _ (ksaStep_wf K tj i h)

theorem Memory.identity_wf : Memory.wf Memory.identity = true := Memory.fill_wf id

@[simp] theorem Memory.read_identity (p : Byte) : Memory.read Memory.identity p = p := Memory.read_fill id p

theorem ksa_wf (K : List Byte) : Memory.wf (ksa K) = true := by
  unfold ksa
  generalize allBytes = is
  exact ksaFold_wf K is _ Memory.identity_wf

end Sys2Proof.Machine
end

