-- ==== Sys2Proof/Laws/PerInstr.lean ====
section
/-! SUPPORT. Facts about an instruction as syntax, one lemma per constructor. -/

namespace Sys2Proof.Laws.Encoding

/-- A command's frame begins with its opcode byte (R71) and has the length its format gives (R72, R75, R78, R79). -/
def Statement (i : Instr) : Prop := (encode i).head? = some i.opcode ∧ (encode i).length = i.frameLength

theorem init (key iv : List Byte) : Statement (.init key iv) := by
  refine ⟨rfl, ?_⟩
  simp only [encode, le16, Instr.frameLength, List.length_cons, List.length_append, List.length_nil]
  omega

theorem xform (d : Byte) : Statement (.xform d) := ⟨rfl, rfl⟩

theorem wipe : Statement .wipe := ⟨rfl, rfl⟩

theorem reserved (op : Byte) : Statement (.reserved op) := ⟨rfl, rfl⟩

end Sys2Proof.Laws.Encoding
end

