-- ==== Sys2Proof/Laws/Run.lean ====
section
/-! SUPPORT. The laws of a run of several steps: one step and then the rest, and two runs end to end. -/

namespace Sys2Proof.Safety

open Sys2Proof.Machine

theorem coreRun_next (M : Host.Core) {k : Nat} {s t : M.State} (h : M.step s = .next t) : M.run (k + 1) s = M.run k t := by
  simp only [Host.Core.run, h]

theorem coreRun_inv (M : Host.Core) {k : Nat} {s u : M.State} (h : M.run (k + 1) s = .next u) :
    ∃ t, M.step s = .next t ∧ M.run k t = .next u := by
  simp only [Host.Core.run] at h
  split at h
  · next t ht => exact ⟨t, ht, h⟩
  · cases h
  · cases h

@[simp] theorem finished_iff {s : State} : finished s = true ↔ s.frameBuf = [] ∧ ∀ a ∈ s.host, a = .take := by
  simp [finished]

@[simp] theorem observation_engine (s : State) : (observation s).engine = s.engine := rfl
@[simp] theorem observation_contractViolation (s : State) : (observation s).contractViolation = s.contractViolation := rfl
@[simp] theorem observation_hostFault (s : State) : (observation s).hostFault = s.hostFault := rfl

/-- With no response unread, a run shows the frames the host has read. -/
theorem observation_responses_of_idle {s : State} (h : s.respPort = []) : (observation s).responses = s.observed := by
  simp [observation, unreadFrames, h]

/-- Reading a response does not change what a run shows (R205). -/
@[simp] theorem observation_hostTake (s : State) : observation s.hostTake = observation s := by
  by_cases h : s.respPort = [] <;> simp [State.hostTake, h, observation, unreadFrames]

theorem runsTo_zero (s : State) : runsTo 0 s s := rfl

theorem runsTo_succ {k : Nat} {s t u : State} (h : step s = .next t) (h' : runsTo k t u) : runsTo (k + 1) s u :=
  (coreRun_next Sys2Proof.core h).trans h'

theorem runsTo_add {j k : Nat} {s t u : State} (h : runsTo j s t) (h' : runsTo k t u) : runsTo (j + k) s u := by
  induction j generalizing s with
  | zero =>
    obtain rfl : s = t := Host.Outcome.next.inj h
    rwa [Nat.zero_add]
  | succ j ih =>
    obtain ⟨s', hs, hr⟩ := coreRun_inv Sys2Proof.core h
    rw [Nat.succ_add]
    exact runsTo_succ hs (ih hr)

end Sys2Proof.Safety
end

