-- ==== Sys2Proof/Tests/Slice0.lean ====
section
/-! SUPPORT. The model's own tests, each expected value taken from spec/ (95_test_vectors.md or the rule named), and one
witness for the hypotheses of every statement. -/

namespace Sys2Proof.Tests

open Sys2Proof Sys2Proof.Machine Sys2Proof.Safety

/-! Well-formedness refuses each ill-formed term (R72, R83). -/

theorem test_wf_refuses_long_key : (Instr.init (List.replicate 65536 0) []).wf = false := by
  simp only [Instr.wf, fitsLenField, List.length_replicate]
  decide

theorem test_wf_refuses_long_iv : (Instr.init [] (List.replicate 65536 0)).wf = false := by
  simp only [Instr.wf, fitsLenField, List.length_replicate]
  decide

theorem test_wf_refuses_defined_opcodes :
    (Instr.reserved 0x01).wf = false ∧ (Instr.reserved 0x02).wf = false ∧ (Instr.reserved 0x03).wf = false := by decide

/-! Decoding, word by word (V-INIT-5, P2, V-R-1). -/

theorem test_decode_init : decodeFrame [0x01, 0x02, 0x00, 0x2B, 0x7E, 0x01, 0x00, 0x01, 0x02]
    = .ok (.init [0x2B, 0x7E] [0x01], [0x02]) := by decide
theorem test_decode_init_empty_iv : decodeFrame [0x01, 0x01, 0x00, 0xAA, 0x00, 0x00] = .ok (.init [0xAA] [], []) := by decide
theorem test_decode_init_cut : decodeFrame [0x01, 0x02, 0x00, 0x2B, 0x7E, 0x01, 0x00] = .error .incomplete := by decide
theorem test_decode_xform : decodeFrame [0x02, 0x41] = .ok (.xform 0x41, []) := by decide
theorem test_decode_xform_cut : decodeFrame [0x02] = .error .incomplete := by decide
theorem test_decode_wipe : decodeFrame [0x03, 0x00] = .ok (.wipe, [0x00]) := by decide
theorem test_decode_reserved : decodeFrame [0x80] = .ok (.reserved 0x80, []) ∧ decodeFrame [0x00] = .ok (.reserved 0x00, []) := by
  decide
theorem test_encode_length_little_endian :
    (encode (.init (List.replicate 300 0) [])).take 3 = [0x01, 0x2C, 0x01] := by decide +kernel

/-! Table words: each row decodes and runs first after reset. -/

theorem test_word_init : decodeTableWord 8 0x01 = some (.init [] []) := by decide
theorem test_word_init_key : decodeTableWord 32 0xAA000101 = some (.init [0xAA] []) := by decide
theorem test_word_xform : decodeTableWord 16 0x5A02 = some (.xform 0x5A) := by decide
theorem test_word_wipe : decodeTableWord 8 0x03 = some .wipe := by decide
theorem test_word_reserved : decodeTableWord 8 0xFF = some (.reserved 0xFF) := by decide
/-- V-X-8: after reset XFORM responds `[03]` and the state keeps the reset values. -/
theorem test_step_xform_after_reset :
    step (State.reset.withFetchWord 16 0x0002) = .next { State.reset with respPort := [0x03] } := by rfl

/-! INIT (S-1, V-INIT-1, R109). -/

/-- The responses a command leaves on the port, for short tests. -/
def responseOf (i : Instr) (s : State) : List Byte :=
  match exec i s with
  | .next t => t.respPort
  | .fault _ => [0xEE]
  | .refused _ => [0xEF]

theorem test_init_key_length_0 : responseOf (.init [] [0x55]) State.reset = [0x01, 0x00, 0x00] := by decide
theorem test_init_key_length_300_first :
    responseOf (.init (List.replicate 300 0) []) State.reset = [0x01, 0x2C, 0x01] := by decide +kernel
theorem test_init_iv_length_257 :
    responseOf (.init [0x00] (List.replicate 257 0)) State.reset = [0x02, 0x01, 0x01] := by decide +kernel
theorem test_init_lengths_256 :
    responseOf (.init (List.replicate 256 0) (List.replicate 256 0)) State.reset = [0x00] := by decide +kernel

/-- V-INIT-1: KSA([00]), entry 00 first. -/
def vInit1 : List Byte :=
  [0x00, 0x23, 0x03, 0x2B, 0x09, 0x0B, 0x41, 0xE5, 0x20, 0x24, 0x86, 0x62, 0x3B, 0x22, 0xAD, 0x99]
  ++ [0xD6, 0xC8, 0x40, 0xA1, 0xBF, 0x3E, 0x06, 0x19, 0x38, 0xEA, 0x31, 0xF6, 0x45, 0x85, 0xCB, 0xC2]
  ++ [0x0A, 0x2A, 0xE4, 0xC6, 0xC3, 0xF5, 0xEC, 0x5B, 0xCE, 0x17, 0xEB, 0x1B, 0x8A, 0x12, 0x8F, 0xFA]
  ++ [0xF4, 0x4C, 0x7B, 0xD9, 0x84, 0xF9, 0x48, 0x7F, 0x5E, 0x97, 0x21, 0x3C, 0xF8, 0x55, 0xB1, 0xD2]
  ++ [0x8E, 0x53, 0x6E, 0x8C, 0x29, 0x87, 0xC4, 0xEE, 0x9C, 0xF2, 0x8D, 0x43, 0x05, 0xB9, 0x83, 0x3F]
  ++ [0x89, 0x25, 0xAC, 0x79, 0x46, 0x90, 0xED, 0x82, 0x11, 0x2C, 0xFD, 0xA6, 0x4E, 0xC9, 0x0C, 0x77]
  ++ [0xD7, 0x07, 0x7E, 0x72, 0x61, 0xC0, 0x35, 0x04, 0xFE, 0x2D, 0x66, 0x7A, 0xE6, 0x58, 0xC1, 0x81]
  ++ [0xA0, 0x7C, 0x54, 0x6C, 0xEF, 0xBD, 0x98, 0x78, 0x73, 0xCF, 0x32, 0xB0, 0x56, 0x9D, 0xA4, 0xBB]
  ++ [0x47, 0x01, 0x0F, 0x3A, 0x1D, 0x15, 0x2E, 0x91, 0xF7, 0xA2, 0x5F, 0xB7, 0x0D, 0xE2, 0x9F, 0xAF]
  ++ [0xDD, 0x64, 0x60, 0xCA, 0x65, 0xB2, 0x9A, 0x2F, 0xCD, 0x6A, 0x94, 0x68, 0x5D, 0x70, 0x1A, 0xA5]
  ++ [0x80, 0xBA, 0x92, 0xDA, 0x42, 0xD3, 0xAB, 0x5A, 0xFC, 0x13, 0x28, 0x63, 0xDF, 0xAE, 0xFF, 0x33]
  ++ [0x4D, 0xE3, 0x30, 0xDC, 0xA8, 0x76, 0xE0, 0x67, 0x4B, 0x69, 0x7D, 0xC7, 0x49, 0x52, 0x39, 0xB5]
  ++ [0x51, 0x95, 0x44, 0x34, 0xE8, 0x16, 0x02, 0xD8, 0x71, 0x1E, 0x6D, 0xA3, 0x5C, 0x3D, 0x0E, 0x08]
  ++ [0x26, 0xE1, 0x4F, 0xE7, 0xAA, 0xF0, 0x14, 0xDB, 0xCC, 0x96, 0xB4, 0xBC, 0x74, 0xBE, 0xF1, 0xC5]
  ++ [0xB3, 0x57, 0x4A, 0x93, 0x50, 0x36, 0xD4, 0x10, 0xA7, 0xDE, 0x88, 0xD5, 0x37, 0xB6, 0x8B, 0x18]
  ++ [0xD1, 0xFB, 0xD0, 0x1C, 0x6F, 0x59, 0x9E, 0x9B, 0xF3, 0x6B, 0xE9, 0xA9, 0x75, 0xB8, 0x1F, 0x27]

/-- V-INIT-1, all 256 entries. -/
theorem test_ksa_v_init_1 : (List.range 256).map (Memory.readAt (ksa [0x00])) = vInit1 := by decide +kernel

/-! XFORM (R136, S-2b, V-X-7, V-X-9). -/

/-- An engine just keyed, both tables listing `T`. -/
def engineOf (T : Byte → Byte) : Engine :=
  { sk := Memory.fill T, sv := Memory.fill T, cursor := 0x00, accumKey := 0x00, accumIv := 0x00, lifecycle := .ready }

/-- V-X-1 (R136): from the tables V-INIT-1 the first two keystream bytes are A0 and 66. -/
theorem test_xform_v_x_1 :
    (engineOf fun p => vInit1.getD p.toNat 0x00).advance.keystream = 0xA0 ∧
    (engineOf fun p => vInit1.getD p.toNat 0x00).advance.advance.keystream = 0x66 := by decide +kernel

/-- S-2b: from identity tables the first two keystream bytes are 2A and 54. -/
theorem test_xform_identity_tables :
    (engineOf id).advance.keystream = 0x2A ∧ (engineOf id).advance.advance.keystream = 0x54 := by decide +kernel

/-- V-X-7, the columns 01, 08, 80 and F0. -/
theorem test_scrambled_indices :
    [scrambleKey 0x01, scrambleKey 0x08, scrambleKey 0x80, scrambleKey 0xF0] = [0x20, 0x01, 0x10, 0x1E] ∧
    [scrambleIv 0x01, scrambleIv 0x08, scrambleIv 0x80, scrambleIv 0xF0] = [0x08, 0x40, 0x04, 0x87] := by decide

/-- A machine that has been wiped. -/
def wipedState : State := { State.reset with engine := Engine.wiped }

/-- V-X-9: XFORM 5A after WIPE responds `[00, 5A]`, the cursor goes to 00, and the ghost flag is set. -/
theorem test_xform_wiped :
    (match exec (.xform 0x5A) wipedState with
      | .next t => t.respPort == [0x00, 0x5A] && t.engine.cursor == 0x00 && t.contractViolation && t.engine.sk == []
      | _ => false) = true := by decide +kernel

/-! WIPE and reserved opcodes (V-W-1, V-R-1). -/

theorem test_wipe_after_reset :
    (match exec .wipe State.reset with
      | .next t => t.respPort == [0x00] && t.engine.cursor == 0xFF && t.engine.lifecycle == .wiped && t.engine.sv == []
      | _ => false) = true := by decide +kernel

theorem test_reserved_7f : exec (.reserved 0x7F) State.reset = .next { State.reset with respPort := [0x04] } := by rfl

/-! The assembler (V-INIT-5, R85, R86). -/

theorem test_asm_init : (parseLine "INIT key=01 02 03, iv=04 05 06 ; comment".toList).map (·.flatMap AsmLine.bytes)
    = some [0x01, 0x03, 0x00, 0x01, 0x02, 0x03, 0x03, 0x00, 0x04, 0x05, 0x06] := by decide +kernel
theorem test_asm_init_empty_key :
    (parseLine "INIT key=, iv=55".toList).map (·.flatMap AsmLine.bytes) = some [0x01, 0x00, 0x00, 0x01, 0x00, 0x55] := by
  decide +kernel
theorem test_asm_xform : parseLine "xform 0x41".toList = some [.xform 0x41] ∧ parseLine "XFORM 41".toList = some [.xform 0x41] := by
  decide +kernel
theorem test_asm_op : (parseLine ".op FF".toList).map (·.flatMap AsmLine.bytes) = some [0xFF] := by decide +kernel
theorem test_asm_keystream : (parseLine "KEYSTREAM 3".toList).map (·.flatMap AsmLine.expand)
    = some [.xform 0x00, .xform 0x00, .xform 0x00] := by decide +kernel
theorem test_asm_rejects : parseLine "INIT key=0, iv=00".toList = none := by decide +kernel

/-- R205: after `WIPE` is answered the run is finished though the response is unread, and shows it; R182: it stays. -/
theorem test_unread_run_is_finished :
    ∃ t, runsTo 2 { State.reset with host := [.send [0x03]] } t ∧ finished t = true ∧
      (observation t).responses = [[0x00]] ∧ step t = .next t := ⟨_, rfl, rfl, rfl, rfl⟩

/-- R202, R205: on a frame cut short the run is stuck, not finished. -/
theorem test_cut_run_is_stuck :
    finished (State.reset) = true ∧ ∃ t, runsTo 1 { State.reset with host := [.send [0x02]] } t ∧ finished t = false ∧
      stuck t := ⟨rfl, _, rfl, rfl, _, rfl⟩

/-! Witnesses: a concrete case that meets all the hypotheses of each statement together. -/

/-- A machine in READY with canonical, all-zero tables. -/
def readyState : State := { State.reset with engine := { Engine.reset with lifecycle := .ready } }

/-- A machine whose frame decoder holds these bytes. -/
def received (bs : List Byte) (host : List HostAction) : State := { State.reset with frameBuf := bs, host := host }

/-- A machine with an unread response. -/
def unread (host : List HostAction) : State := { State.reset with respPort := [0x00], host := host }

theorem witness_DecodeEncodeRoundTrip : (Instr.init [0x00] [0x00]).wf = true ∧ (Instr.reserved 0xFF).wf = true := by decide
theorem witness_DecodedBytesAreTheFrame : decodeFrame [0x02, 0x41, 0x03] = .ok (.xform 0x41, [0x03]) := by decide
theorem witness_CutFrameIsIncomplete : (Instr.xform 0x41).wf = true ∧ 1 < (encode (.xform 0x41)).length := by decide
theorem witness_StreamDecodesFrameByFrame :
    (∀ i ∈ [Instr.wipe, .xform 0x41], i.wf = true) ∧ decodeFrame [0x02] = .error .incomplete ∧ decodeFrame [] = .error .empty := by
  decide
theorem witness_OpcodeByteSelectsCommand :
    decodeFrame (0x02 :: [0x41]) = .ok (.xform 0x41, []) ∧ decodeFrame (0x00 :: []) = .ok (.reserved 0x00, []) ∧
    decodeFrame (0x04 :: []) = .ok (.reserved 0x04, []) ∧ decodeFrame (0xFF :: []) = .ok (.reserved 0xFF, []) := by decide
theorem witness_InitFrameFieldsAtTheirOffsets :
    decodeFrame [0x01, 0x01, 0x00, 0xAA, 0x01, 0x00, 0x55, 0x03] = .ok (.init [0xAA] [0x55], [0x03]) := by decide
theorem witness_KeyScheduleComputesKsa :
    lengthsOk [0x00] [0x00] ∧ ∃ t, exec (.init [0x00] [0x00]) State.reset = .next t := ⟨by simp [lengthsOk], ⟨_, rfl⟩⟩
theorem witness_FetchedWordRuns : decodeTableWord 16 0x4102 = some (.xform 0x41) := by decide
theorem witness_InitSucceeds :
    State.reset.engine.lifecycle ≠ .reserved ∧ lengthsOk [0x00] (List.replicate 256 0x00) := by
  refine ⟨by decide, ?_⟩
  simp only [lengthsOk, List.length_replicate]
  decide
theorem witness_InitRejectsKeyLength :
    State.reset.engine.lifecycle ≠ .reserved ∧ ([] : List Byte).length < 1 ∧
    (256 < (List.replicate 257 (0 : Byte)).length ∧ (List.replicate 257 (0 : Byte)).length ≤ 65535) := by
  refine ⟨by decide, by decide, ?_⟩
  simp only [List.length_replicate]
  decide
theorem witness_InitRejectsIvLength :
    readyState.engine.lifecycle ≠ .reserved ∧ (1 ≤ [(0xAA : Byte)].length ∧ [(0xAA : Byte)].length ≤ 256) ∧
    ([] : List Byte).length < 1 ∧ 256 < (List.replicate 257 (0 : Byte)).length := by
  refine ⟨by decide, by decide, by decide, ?_⟩
  simp only [List.length_replicate]
  decide
theorem witness_EqualPeriodicKeysGiveEqualTables :
    ∀ i, i < 256 → [(0x01 : Byte), 0x02].getD (i % 2) 0 = [(0x01 : Byte), 0x02, 0x01, 0x02].getD (i % 4) 0 := by decide +kernel

/-- K_ID of R109 (4). -/
def kId : List Byte := 0x00 :: (List.range 255).map fun i => 1 - BitVec.ofNat 8 (i + 1)

theorem witness_IdentityKeyGivesIdentityTable :
    kId.length = 256 ∧ kId.getD 0 0 = 0 ∧ (∀ i, 1 ≤ i → i < 256 → kId.getD i 0 = 1 - BitVec.ofNat 8 i) ∧
    kId.take 4 = [0x00, 0x00, 0xFF, 0xFE] := by
  refine ⟨by simp [kId], rfl, ?_, by decide +kernel⟩
  have h : ∀ i : Fin 256, 1 ≤ i.val → kId.getD i.val 0 = 1 - BitVec.ofNat 8 i.val := by decide +kernel
  exact fun i h1 h2 => h ⟨i, h2⟩ h1
theorem witness_InitTablesDependOnTheirOwnOperand :
    lengthsOk [0x00] [0x00] ∧ (∃ t, exec (.init [0x00] [0x00]) State.reset = .next t) ∧
    (∃ t, exec (.init [0x00] [0x00]) readyState = .next t) :=
  ⟨by simp [lengthsOk], ⟨_, rfl⟩, ⟨_, rfl⟩⟩
theorem witness_XformNotReadyInUninit : State.reset.engine.lifecycle = .uninit := rfl
theorem witness_XformRunsOneUpdateStep :
    readyState.engine.lifecycle = .ready ∧ tablesCanonical readyState.engine = true ∧
    tablesCanonical (engineOf id) = true ∧ wipedState.engine.lifecycle = .wiped ∧ tablesCanonical wipedState.engine = true := by
  decide +kernel
theorem witness_XformAfterWipeReturnsItsInput :
    wipedState.engine.lifecycle = .wiped ∧ wipedState.engine.sk = [] ∧ wipedState.engine.sv = [] ∧
    wipedState.engine.accumKey = 0 ∧ wipedState.engine.accumIv = 0 := by decide +kernel
theorem witness_XformStateIgnoresItsInput : readyState.engine.lifecycle = .ready ∧ wipedState.engine.lifecycle = .wiped := by
  decide
theorem witness_WipeLeavesTheWipeValues : readyState.engine.lifecycle ≠ .reserved := by decide
theorem witness_WipeForgetsWhatWasBefore :
    ∃ t u v w, exec .wipe readyState = .next t ∧ exec .wipe t = .next u ∧ exec (.xform 0x41) t = .next v ∧
      exec .wipe v = .next w := ⟨_, _, _, _, rfl, rfl, rfl, rfl⟩
theorem witness_ReservedOpcodeChangesNothing : wipedState.engine.lifecycle ≠ .reserved := by decide
theorem witness_EveryCommandAnswersOnce :
    State.reset.engine.lifecycle ≠ .reserved ∧ (Instr.init [] [0x55]).wf = true ∧ (Instr.reserved 0x04).wf = true := by decide
theorem witness_CommandsLeaveTheRestAlone :
    (∃ t, exec (.xform 0x41) wipedState = .next t) ∧ (∃ t, exec .wipe readyState = .next t) := ⟨⟨_, rfl⟩, ⟨_, rfl⟩⟩
theorem witness_LifecycleChangesOnlyByTheTable :
    (lengthsOk [0x00] [0x00] ∧ ∃ t, exec (.init [0x00] [0x00]) wipedState = .next t) ∧
    (¬ lengthsOk [] [0x00] ∧ ∃ t, exec (.init [] [0x00]) wipedState = .next t) ∧
    (∃ t, exec (.xform 0x41) readyState = .next t) ∧ (∃ t, exec (.reserved 0x00) readyState = .next t) :=
  ⟨⟨by simp [lengthsOk], ⟨_, rfl⟩⟩, ⟨by simp [lengthsOk], ⟨_, rfl⟩⟩, ⟨_, rfl⟩, ⟨_, rfl⟩⟩
theorem witness_ErrorResponsesArePrecise :
    ∃ t, exec (.init [] [0x55]) readyState = .next t ∧ t.respPort = readyState.respPort ++ 0x01 :: [0x00, 0x00] ∧
      (0x01 : Byte) ≠ 0x00 := ⟨_, rfl, rfl, by decide⟩
theorem witness_ReservedLifecycleIsStuck :
    ({ State.reset with engine := { Engine.reset with lifecycle := .reserved } } : State).engine.lifecycle = .reserved := rfl
theorem witness_CommandsRefineTheAbstractCore :
    readyState.engine.lifecycle ≠ .reserved ∧ tablesCanonical readyState.engine = true := by decide
/-- The second clauses of the statements about an error status: a command that gives it. -/
theorem witness_error_status_clauses :
    (∃ t, exec (.init [] [0x55]) State.reset = .next t ∧ t.respPort = State.reset.respPort ++ 0x01 :: [0x00, 0x00]) ∧
    (∃ t, exec (.init [0xAA] []) State.reset = .next t ∧ t.respPort = State.reset.respPort ++ 0x02 :: [0x00, 0x00]) ∧
    (∃ t, exec (.xform 0x00) State.reset = .next t ∧ t.respPort = State.reset.respPort ++ 0x03 :: []) ∧
    (∃ t, exec (.reserved 0x00) State.reset = .next t ∧ t.respPort = State.reset.respPort ++ 0x04 :: []) :=
  ⟨⟨_, rfl, rfl⟩, ⟨_, rfl, rfl⟩, ⟨_, rfl, rfl⟩, ⟨_, rfl, rfl⟩⟩
/-- LifecycleChangesOnlyByTheTable, the clause about a step. -/
theorem witness_lifecycle_step_clause :
    (∃ t, step (received [0x03] []) = .next t ∧ t.engine.lifecycle ≠ (received [0x03] []).engine.lifecycle) ∧
    (∃ t, step (received (encode (.init [0x00] [0x00])) []) = .next t ∧
      t.engine.lifecycle ≠ (received (encode (.init [0x00] [0x00])) []).engine.lifecycle) ∧
    (∃ t, step { readyState with host := [.reset false] } = .next t ∧ t.engine.lifecycle ≠ readyState.engine.lifecycle) :=
  ⟨⟨_, rfl, by decide⟩, ⟨_, rfl, by decide⟩, ⟨_, rfl, by decide⟩⟩
/-- The hypotheses of the statements about runs: a waiting machine, commands a frame can carry, lengths INIT accepts
(CommandSequenceRunsInOrder, KeystreamIsAFunctionOfPosition, TransformIsSelfInverse, CursorCountsBytesAfterInit,
EqualKeyAndIvKeepTablesEqual, WipedStreamReturnsItsInput, WipeErasesEveryEarlierSecret,
KeystreamPseudoReadsTheKeystream). -/
theorem witness_runs :
    waiting State.reset ∧ waiting readyState ∧ waiting wipedState ∧ tablesCanonical State.reset.engine = true ∧
    (∀ i ∈ [Instr.init [0x00] [0x00], .xform 0x41, .wipe, .reserved 0x00], i.wf = true) ∧ lengthsOk [0x00] [0x00] ∧
    readyState.engine.lifecycle ≠ .uninit :=
  ⟨⟨⟨rfl, rfl⟩, by decide⟩, ⟨⟨rfl, rfl⟩, by decide⟩, ⟨⟨rfl, rfl⟩, by decide⟩, rfl, by decide, by simp [lengthsOk], by decide⟩
theorem witness_ChunkedTransformIsTheSame :
    waiting readyState ∧ idle readyState ∧ [(0x00 : Byte), 0x01].length ≤ 2 ∧ [(0x02 : Byte)].length ≤ 1 ∧ 2 + 1 ≤ 3 :=
  ⟨⟨⟨rfl, rfl⟩, by decide⟩, ⟨rfl, rfl⟩, by decide, by decide, by decide⟩
theorem witness_ShortOutputBufferIsAHostFault : idle readyState ∧ 1 < [(0x00 : Byte), 0x01].length := ⟨⟨rfl, rfl⟩, by decide⟩
theorem witness_UninitContentsAreUnobservable :
    sameButUninit State.reset.engine { Engine.reset with cursor := 0x17, sk := [(3, 0x09)] } ∧
    (∃ t, step State.reset = .next t) ∧ step (received [0x02] []) = .fault .frameIncomplete :=
  ⟨.inr ⟨rfl, rfl⟩, ⟨_, rfl⟩, rfl⟩
theorem witness_StepRunsTheReceivedCommand :
    (received [0x03] [.take]).frameBuf = encode .wipe ∧ (received [0x03] [.take]).respPort = [] ∧
    (received [0x03] [.take]).host.head? ≠ some (.reset true) := by decide
theorem witness_StepWaitsOrStopsByName :
    (State.reset.host = [] ∧ State.reset.respPort = [] ∧ State.reset.frameBuf = []) ∧
    decodeFrame (received [0x01, 0x00] []).frameBuf = .error .incomplete ∧
    ((unread []).host = [] ∧ (unread []).frameBuf = [] ∧ (unread []).respPort ≠ []) ∧
    ({ unread [] with frameBuf := [0x02] }.respPort ≠ [] ∧ { unread [] with frameBuf := [0x02] }.frameBuf ≠ []) ∧
    (unread [.send [0x03]]).host = .send [0x03] :: [] ∧
    ((received [0x03, 0x02] []).host.head? ≠ some (.reset true) ∧
      decodeFrame (received [0x03, 0x02] []).frameBuf = .ok (.wipe, [0x02])) := by decide
theorem witness_HostSendsAndReads :
    (received [0x02] [.send [0x41]]).host = .send [0x41] :: [] ∧ decodeFrame [0x02] = .error .incomplete ∧
    (unread [.take]).host = .take :: [] ∧ (unread [.take]).respPort ≠ [] := by decide
theorem witness_ResetSetsEveryPieceOfState :
    (received [0x03] [.reset true]).host = .reset true :: [] ∧ (unread [.reset false]).host = .reset false :: [] ∧
    (unread [.reset false]).respPort ≠ [] ∧ (received [0x02] [.reset false]).host = .reset false :: [] ∧
    decodeFrame (received [0x02] [.reset false]).frameBuf = .error .incomplete := by decide
theorem witness_StepKeepsTheEngineInvariant : engineInvariant State.reset.engine ∧ ∃ t, step State.reset = .next t :=
  ⟨⟨rfl, rfl⟩, ⟨_, rfl⟩⟩
theorem witness_StepKeepsTablesCanonical :
    tablesCanonical readyState.engine = true ∧ ∃ t, step { readyState with frameBuf := [0x02, 0x41] } = .next t :=
  ⟨rfl, ⟨_, rfl⟩⟩
theorem witness_GhostFlagsAreSticky :
    (∃ t, step { wipedState with frameBuf := [0x02, 0x41] } = .next t ∧ t.contractViolation = true) ∧
    (∃ t, step { State.reset with contractViolation := true, hostFault := true, host := [.reset false] } = .next t) :=
  ⟨⟨_, rfl, rfl⟩, ⟨_, rfl⟩⟩
/-- With a second instance that goes on, and with one that has stopped. -/
theorem witness_InstancesShareNothing :
    (∃ s₁ s₂, systemStep 0 [received [0x03] [], received [0x00] []] = .next s₁ ∧ systemStep 1 s₁ = .next s₂) ∧
    (∃ s₁, systemStep 0 [received [0x03] [], received [0x02] []] = .next s₁ ∧
      systemStep 1 s₁ = .fault .frameIncomplete) := ⟨⟨_, _, rfl, rfl⟩, ⟨_, rfl, rfl⟩⟩
theorem witness_AssembledBytesDecodeToTheExpansion : 
    (∀ i ∈ (AsmLine.init [0x00] [0x00]).expand, i.wf = true) ∧ [(0x00 : Byte)].length ≤ 65535 := by decide
theorem witness_FinishedRunsStayFinished :
    finished (unread [.take]) = true ∧ finished (unread []) = true ∧ finished State.reset = true := by decide
theorem witness_RunIsFinishedWhenEveryFrameIsAnswered :
    waiting wipedState ∧ tablesCanonical wipedState.engine = true ∧ (Instr.xform 0x41).wf = true ∧
    1 < (encode (.xform 0x41)).length ∧ (absEngine wipedState.engine).violatesAny ([] ++ [.xform 0x41]) = true :=
  ⟨⟨⟨rfl, rfl⟩, by decide⟩, by decide +kernel, rfl, by decide, rfl⟩

end Sys2Proof.Tests
end

section
/-! PROOFS. The rules of the host's moves and of one step that the state's statements share: which fields a host move
touches, what a step does to the engine, and what the effect of a command says of the ghost flag and of LIFECYCLE. -/

namespace Sys2Proof.Machine

/-! Reading a response and the TRANSFORM wrapper, field by field. -/

@[simp] theorem State.hostTake_engine (s : State) : s.hostTake.engine = s.engine := by
  by_cases h : s.respPort = [] <;> simp [State.hostTake, h]
@[simp] theorem State.hostTake_contractViolation (s : State) : s.hostTake.contractViolation = s.contractViolation := by
  by_cases h : s.respPort = [] <;> simp [State.hostTake, h]
@[simp] theorem State.hostTake_hostFault (s : State) : s.hostTake.hostFault = s.hostFault := by
  by_cases h : s.respPort = [] <;> simp [State.hostTake, h]

@[simp] theorem State.hostTransform_engine (s : State) (input : List Byte) (capacity : Nat) :
    (s.hostTransform input capacity).engine = s.engine := by
  by_cases h : input.length ≤ capacity <;> simp [State.hostTransform, h]
@[simp] theorem State.hostTransform_contractViolation (s : State) (input : List Byte) (capacity : Nat) :
    (s.hostTransform input capacity).contractViolation = s.contractViolation := by
  by_cases h : input.length ≤ capacity <;> simp [State.hostTransform, h]
@[simp] theorem State.hostTransform_hostFault (s : State) (input : List Byte) (capacity : Nat) :
    (s.hostTransform input capacity).hostFault = (s.hostFault || decide (capacity < input.length)) := by
  by_cases h : input.length ≤ capacity
  · simp [State.hostTransform, h]
  · simp [State.hostTransform, h, Nat.lt_of_not_le h]

/-! No move of the host and no field it reads depends on the engine. -/

@[simp] theorem State.withEngine_self (s : State) : s.withEngine s.engine = s := rfl
@[simp] theorem State.resetPreempts_withEngine (s : State) (e : Engine) :
    (s.withEngine e).resetPreempts = s.resetPreempts := rfl

theorem State.hostTake_withEngine (s : State) (e : Engine) : (s.withEngine e).hostTake = s.hostTake.withEngine e := by
  by_cases h : s.respPort = [] <;> simp [State.hostTake, State.withEngine, h]

theorem State.hostTransform_withEngine (s : State) (e : Engine) (input : List Byte) (capacity : Nat) :
    (s.withEngine e).hostTransform input capacity = (s.hostTransform input capacity).withEngine e := by
  by_cases h : input.length ≤ capacity <;> simp [State.hostTransform, State.noteHostFault, State.withEngine, h]

/-! The engine and the ghost flags over a host action and over a step. -/

/-- A host action leaves the engine alone, unless it is a reset (R190). -/
theorem hostAct_engine {a : HostAction} {s t : State} (h : hostAct a s = .next t) :
    t.engine = s.engine ∨ ∃ b, a = .reset b ∧ t = s.applyReset := by
  obtain ⟨bytes, -, -, rfl⟩ | ⟨-, rfl⟩ | hreset | ⟨input, cap, -, rfl⟩ := hostAct_next h
  · exact .inl rfl
  · exact .inl s.hostTake_engine
  · exact .inr hreset
  · exact .inl (s.hostTransform_engine input cap)

/-- No host action touches `contract_violation`, and none clears `host_fault` (R30, R135). -/
theorem hostAct_ghostFlags {a : HostAction} {s t : State} (h : hostAct a s = .next t) :
    t.contractViolation = s.contractViolation ∧ (s.hostFault = true → t.hostFault = true) := by
  obtain ⟨bytes, -, -, rfl⟩ | ⟨-, rfl⟩ | ⟨b, -, rfl⟩ | ⟨input, cap, -, rfl⟩ := hostAct_next h
  · exact ⟨rfl, id⟩
  · exact ⟨s.hostTake_contractViolation, by simp⟩
  · exact ⟨rfl, id⟩
  · exact ⟨s.hostTransform_contractViolation input cap, by simp +contextual⟩

/-- What a step does to the engine: nothing, the effect of the command received, or the reset the host asserts. -/
theorem step_engine {s t : State} (h : step s = .next t) :
    t.engine = s.engine ∨
    (∃ i v r, decodeFrame s.frameBuf = .ok (i, []) ∧ exec i { s with frameBuf := [] } = .next t ∧
      CommandEffect s.engine i t.engine v r) ∨
    (∃ b rest, s.host = .reset b :: rest ∧ t = { s with host := rest }.applyReset) := by
  obtain rfl | ⟨i, -, hd, hx⟩ | ⟨a, rest, hh, ha⟩ := step_next h
  · exact .inl rfl
  · obtain ⟨-, e, v, r, hc, rfl⟩ := exec_next hx
    exact .inr (.inl ⟨i, v, r, hd, hx, hc⟩)
  · obtain he | ⟨b, rfl, ht⟩ := hostAct_engine ha
    · exact .inl he
    · exact .inr (.inr ⟨b, rest, hh, ht⟩)

/-! The effect of a command. -/

/-- At a legal LIFECYCLE a command does what any effect derived for it says, since that effect is unique. -/
theorem exec_of_effect {i : Instr} {s : State} {e : Engine} {v : Bool} {r : Resp}
    (h : s.engine.lifecycle ≠ .reserved) (hc : CommandEffect s.engine i e v r) : exec i s = .next (s.effect e v r) := by
  obtain ⟨e', v', r', hc', hx⟩ := exec_of_legal i h
  obtain ⟨rfl, rfl, rfl⟩ := hc.unique hc'
  exact hx

/-- Only an XFORM in WIPED is a contract violation (R30, R131). -/
theorem CommandEffect.violation_iff {e e' : Engine} {i : Instr} {v : Bool} {r : Resp} (h : CommandEffect e i e' v r) :
    v = true ↔ (∃ d, i = .xform d) ∧ e.lifecycle = .wiped := by
  cases h with
  | xformNotReady d hu => simp [hu]
  | xformRuns d hu => simp
  | _ => simp

/-- A command that changes LIFECYCLE is a WIPE or an INIT at lengths in [1, 256] (R29). -/
theorem CommandEffect.lifecycle_change {e e' : Engine} {i : Instr} {v : Bool} {r : Resp} (h : CommandEffect e i e' v r)
    (hne : e'.lifecycle ≠ e.lifecycle) :
    (i = .wipe ∧ e'.lifecycle = .wiped) ∨
    (∃ key iv, i = .init key iv ∧ Safety.lengthsOk key iv ∧ e'.lifecycle = .ready) := by
  cases h with
  | initOk key iv hk hv => exact .inr ⟨key, iv, rfl, ⟨hk, hv⟩, rfl⟩
  | wipe => exact .inl ⟨rfl, rfl⟩
  | _ => exact absurd rfl hne

end Sys2Proof.Machine
end

section
/-! PROOFS. Permutation tables, and the invariants of the engine over the effect of a command (R23, R131). -/

namespace Sys2Proof.Safety

open Sys2Proof.Machine

/-! Permutations. -/

/-- A table is a permutation when reading it is a bijection of the Bytes. -/
theorem isPermutation_iff_bijective {m : Memory} : isPermutation m ↔ Function.Bijective (Memory.read m) :=
  (Function.bijective_iff_existsUnique _).symm

theorem read_swap_eq_comp {m : Memory} (h : Memory.wf m = true) (p q : Byte) :
    Memory.read (Memory.swap m p q) = Memory.read m ∘ Equiv.swap q p := by
  funext r
  simp only [Memory.read_swap h, Function.comp_apply, Equiv.swap_apply_def, apply_ite (Memory.read m)]

theorem isPermutation_swap {m : Memory} (h : Memory.wf m = true) (hm : isPermutation m) (p q : Byte) :
    isPermutation (Memory.swap m p q) := by
  rw [isPermutation_iff_bijective] at hm ⊢
  rw [read_swap_eq_comp h]
  exact hm.comp (Equiv.swap q p).bijective

theorem isPermutation_identity : isPermutation Memory.identity :=
  fun v => ⟨v, Memory.read_identity v, fun q hq => by simpa using hq⟩

/-- The iterations of KSA keep a permutation, whatever positions they visit (R103, R109). -/
theorem isPermutation_ksaFold (K is : List Byte) (tj : Memory × Byte) (h : Memory.wf tj.1 = true)
    (hm : isPermutation tj.1) : isPermutation (is.foldl (ksaStep K) tj).1 := by
  induction is generalizing tj with
  | nil => exact hm
  | cons i is ih => exact ih _ (ksaStep_wf K tj i h) (isPermutation_swap h hm _ _)

theorem isPermutation_ksa (K : List Byte) : isPermutation (ksa K) := by
  unfold ksa
  generalize allBytes = is
  exact isPermutation_ksaFold K is _ Memory.identity_wf isPermutation_identity

/-! The canonical form. -/

theorem tablesCanonical_iff {e : Engine} : tablesCanonical e = true ↔ Memory.wf e.sk = true ∧ Memory.wf e.sv = true :=
  Bool.and_eq_true_iff

theorem tablesCanonical_keyed (key iv : List Byte) : tablesCanonical (Engine.keyed key iv) = true :=
  tablesCanonical_iff.2 ⟨by simpa using ksa_wf key, by simpa using ksa_wf iv⟩

theorem tablesCanonical_wiped : tablesCanonical Engine.wiped = true :=
  tablesCanonical_iff.2 ⟨by simpa using Memory.nil_wf, by simpa using Memory.nil_wf⟩

theorem tablesCanonical_advance {e : Engine} (h : tablesCanonical e = true) : tablesCanonical e.advance = true := by
  obtain ⟨hk, hv⟩ := tablesCanonical_iff.1 h
  exact tablesCanonical_iff.2 ⟨Memory.swap_wf _ _ hk, Memory.swap_wf _ _ hv⟩

theorem tablesCanonical_of_effect {e e' : Engine} {i : Instr} {v : Bool} {r : Resp} (h : CommandEffect e i e' v r)
    (he : tablesCanonical e = true) : tablesCanonical e' = true := by
  cases h with
  | initOk key iv => exact tablesCanonical_keyed key iv
  | xformRuns d => exact tablesCanonical_advance he
  | wipe => exact tablesCanonical_wiped
  | _ => exact he

/-! The engine invariant. -/

theorem engineInvariant_reset : engineInvariant Engine.reset := ⟨rfl, rfl⟩

theorem engineInvariant_keyed (key iv : List Byte) : engineInvariant (Engine.keyed key iv) :=
  ⟨tablesCanonical_keyed key iv, by simpa using ⟨isPermutation_ksa key, isPermutation_ksa iv⟩⟩

theorem engineInvariant_wiped : engineInvariant Engine.wiped :=
  ⟨tablesCanonical_wiped, Engine.wiped_sk, Engine.wiped_sv, rfl, rfl⟩

/-- The update step keeps permutations in READY, since it only swaps, and zero tables in WIPED, since it only swaps and
adds zeros (R131, R132). -/
theorem engineInvariant_advance {e : Engine} (hu : e.lifecycle ≠ .uninit) (h : engineInvariant e) :
    engineInvariant e.advance := by
  obtain ⟨hcan, hlife⟩ := h
  obtain ⟨hk, hv⟩ := tablesCanonical_iff.1 hcan
  refine ⟨tablesCanonical_advance hcan, ?_⟩
  rw [Engine.advance_lifecycle]
  match hl : e.lifecycle with
  | .uninit => exact absurd hl hu
  | .ready =>
    rw [hl] at hlife
    exact ⟨isPermutation_swap hk hlife.1 _ _, isPermutation_swap hv hlife.2 _ _⟩
  | .wiped =>
    rw [hl] at hlife
    obtain ⟨hsk, hsv, haK, haI⟩ := hlife
    simp [hsk, hsv, haK, haI]
  | .reserved =>
    rw [hl] at hlife
    exact hlife

theorem engineInvariant_of_effect {e e' : Engine} {i : Instr} {v : Bool} {r : Resp} (h : CommandEffect e i e' v r)
    (he : engineInvariant e) : engineInvariant e' := by
  cases h with
  | initOk key iv => exact engineInvariant_keyed key iv
  | xformRuns d hu => exact engineInvariant_advance hu he
  | wipe => exact engineInvariant_wiped
  | _ => exact he

end Sys2Proof.Safety
end

section
/-! PROOFS. Two machines that differ only in what an UNINIT engine holds (R38): each part of a step keeps them so. -/

namespace Sys2Proof.Safety

open Sys2Proof.Machine

/-- Two outcomes that are the same stop, or next states that differ at most in what an UNINIT engine holds. -/
inductive OutcomesAlike : Host.Outcome State Fault Refusal → Host.Outcome State Fault Refusal → Prop
  | next {t : State} {f : Engine} (h : sameButUninit t.engine f) : OutcomesAlike (.next t) (.next (t.withEngine f))
  | fault (f : Fault) : OutcomesAlike (.fault f) (.fault f)

theorem OutcomesAlike.refl_next (t : State) : OutcomesAlike (.next t) (.next t) := .next (f := t.engine) (.inl rfl)

/-- A command has in every UNINIT engine the same response and ghost flag, and leaves engines that are again alike. -/
theorem effect_of_uninit {e e' f : Engine} {i : Instr} {v : Bool} {r : Resp} (he : e.lifecycle = .uninit)
    (hf : f.lifecycle = .uninit) (h : CommandEffect e i e' v r) :
    ∃ f', sameButUninit e' f' ∧ CommandEffect f i f' v r := by
  cases h with
  | initBadKey key iv hk => exact ⟨f, .inr ⟨he, hf⟩, .initBadKey key iv hk⟩
  | initBadIv key iv hk hv => exact ⟨f, .inr ⟨he, hf⟩, .initBadIv key iv hk hv⟩
  | initOk key iv hk hv => exact ⟨_, .inl rfl, .initOk key iv hk hv⟩
  | xformNotReady d => exact ⟨f, .inr ⟨he, hf⟩, .xformNotReady d hf⟩
  | xformRuns d hu => exact absurd he hu
  | wipe => exact ⟨_, .inl rfl, .wipe⟩
  | reserved op => exact ⟨f, .inr ⟨he, hf⟩, .reserved op⟩

variable {s : State} {e : Engine}

theorem exec_alike (i : Instr) (he : s.engine.lifecycle = .uninit) (hf : e.lifecycle = .uninit) :
    OutcomesAlike (exec i s) (exec i (s.withEngine e)) := by
  obtain ⟨e', v, r, hc, hx⟩ := exec_of_legal i (s := s) (by simp [he])
  obtain ⟨f', hs, hc'⟩ := effect_of_uninit he hf hc
  rw [hx, exec_of_effect (s := s.withEngine e) (by simp [hf]) hc']
  exact .next hs

theorem hostAct_alike (a : HostAction) (h : sameButUninit s.engine e) :
    OutcomesAlike (hostAct a s) (hostAct a (s.withEngine e)) := by
  cases a with
  | send bytes =>
    by_cases hr : s.respPort = []
    · simp only [hostAct, State.hostSend, State.withEngine_respPort, hr, ↓reduceIte]
      exact .next (t := { s with frameBuf := s.frameBuf ++ bytes, respPort := [] }) h
    · simp only [hostAct, State.hostSend, State.withEngine_respPort, hr, ↓reduceIte]
      exact .fault _
  | take =>
    simp only [hostAct, State.hostTake_withEngine]
    exact .next (by simpa using h)
  | reset preempt => exact .refl_next s.applyReset
  | transform input capacity =>
    simp only [hostAct, State.hostTransform_withEngine]
    exact .next (by simpa using h)

theorem hostTurn_alike {o o' : Host.Outcome State Fault Refusal} (h : sameButUninit s.engine e)
    (ho : OutcomesAlike o o') : OutcomesAlike (hostTurn o s) (hostTurn o' (s.withEngine e)) := by
  match hh : s.host with
  | [] => rwa [hostTurn_nil hh, hostTurn_nil (s := s.withEngine e) hh]
  | a :: rest =>
    rw [hostTurn_cons hh, hostTurn_cons (s := s.withEngine e) hh]
    exact hostAct_alike (s := { s with host := rest }) a h

theorem coreTurn_alike (he : s.engine.lifecycle = .uninit) (hf : e.lifecycle = .uninit) :
    OutcomesAlike (coreTurn exec s) (coreTurn exec (s.withEngine e)) := by
  have h : sameButUninit s.engine e := .inr ⟨he, hf⟩
  by_cases hr : s.respPort = []
  · simp only [coreTurn, State.withEngine_respPort, State.withEngine_frameBuf, hr, ↓reduceIte]
    match decodeFrame s.frameBuf with
    | .ok (i, []) => exact exec_alike (s := { s with frameBuf := [], respPort := [] }) i he hf
    | .ok (_, _ :: _) => exact .fault _
    | .error .empty => exact hostTurn_alike h (.next h)
    | .error .incomplete => exact hostTurn_alike h (.fault _)
  · simp only [coreTurn, State.withEngine_respPort, State.withEngine_frameBuf, hr, ↓reduceIte]
    refine hostTurn_alike h ?_
    by_cases hb : s.frameBuf = []
    · simpa only [hb, ↓reduceIte] using .next h
    · simpa only [hb, ↓reduceIte] using .fault _

theorem step_alike (he : s.engine.lifecycle = .uninit) (hf : e.lifecycle = .uninit) :
    OutcomesAlike (step s) (step (s.withEngine e)) := by
  have h : sameButUninit s.engine e := .inr ⟨he, hf⟩
  by_cases hp : s.resetPreempts = true
  · simpa only [step, State.resetPreempts_withEngine, hp, ↓reduceIte] using hostTurn_alike h (.next h)
  · simpa only [step, State.resetPreempts_withEngine, hp, Bool.false_eq_true, ↓reduceIte] using coreTurn_alike he hf

end Sys2Proof.Safety
end

section
/-! PROOFS. A step of one CORE in a system, read off the list of states (R36, R180). -/

namespace Sys2Proof.Machine

/-- A system's step sets the entry of the CORE that moves; at an index beyond the list, setting it changes nothing. -/
theorem systemStep_next_iff {k : Nat} {sys sys' : List State} :
    systemStep k sys = .next sys' ↔ ∃ t, (∀ s, sys[k]? = some s → step s = .next t) ∧ sys' = sys.set k t := by
  match hk : sys[k]? with
  | none =>
    have hset (t : State) : sys.set k t = sys := List.set_eq_of_length_le (List.getElem?_eq_none_iff.1 hk)
    have : Nonempty State := ⟨State.reset⟩
    simp [systemStep, hk, hset, eq_comm]
  | some s => cases hs : step s <;> simp [systemStep, hk, hs, eq_comm]

theorem systemStep_fault_iff {k : Nat} {sys : List State} {f : Fault} :
    systemStep k sys = .fault f ↔ ∃ s, sys[k]? = some s ∧ step s = .fault f := by
  match hk : sys[k]? with
  | none => simp [systemStep, hk]
  | some s => cases hs : step s <;> simp [systemStep, hk, hs]

end Sys2Proof.Machine
end

section
/-! PROOFS. The statements about the state (10_state.md), settled. -/

namespace Sys2Proof.Safety

open Sys2Proof.Machine

/-- Settles O41: every part of a step keeps two UNINIT machines alike (R38). -/
theorem uninitContentsAreUnobservable : Obligations.UninitContentsAreUnobservable := by
  rintro s e (rfl | ⟨he, hf⟩)
  · exact ⟨fun t ht => ⟨t.engine, .inl rfl, ht⟩, fun f hstop => hstop⟩
  · have h : OutcomesAlike (step s) (step { s with engine := e }) := step_alike he hf
    constructor
    · intro t ht
      rw [ht] at h
      generalize step { s with engine := e } = o at h ⊢
      cases h with
      | next hs => exact ⟨_, hs, rfl⟩
    · intro f hstop
      rw [hstop] at h
      generalize step { s with engine := e } = o at h ⊢
      cases h
      rfl

/-- Settles O46: the engine changes by a command's effect or by a reset, and both keep the invariant (R23). -/
theorem stepKeepsTheEngineInvariant : Obligations.StepKeepsTheEngineInvariant := by
  intro s t hinv h
  obtain he | ⟨i, v, r, -, -, hc⟩ | ⟨b, rest, -, rfl⟩ := step_engine h
  · rwa [he]
  · exact engineInvariant_of_effect hc hinv
  · exact engineInvariant_reset

/-- Settles O27: a command's effect touches the engine, the flag and the port (R80), and its flag is R30's. -/
theorem commandsLeaveTheRestAlone : Obligations.CommandsLeaveTheRestAlone := by
  intro i s t h
  obtain ⟨-, e, v, r, hc, rfl⟩ := exec_next h
  refine ⟨rfl, rfl, rfl, rfl, List.prefix_append _ _, ?_⟩
  rw [State.effect_contractViolation, Bool.or_eq_true, hc.violation_iff]

/-- Settles O28: a command's effect moves LIFECYCLE as R29 says, and of the host's moves only a reset does. -/
theorem lifecycleChangesOnlyByTheTable : Obligations.LifecycleChangesOnlyByTheTable := by
  refine ⟨fun i s t h => ?_, fun s t h hne => ?_, fun _ => rfl⟩
  · obtain ⟨-, e, v, r, hc, rfl⟩ := exec_next h
    cases hc with
    | initBadKey key iv hk => exact ⟨fun hok => absurd hok.1 hk, fun _ => rfl⟩
    | initBadIv key iv hk hv => exact ⟨fun hok => absurd hok.2 hv, fun _ => rfl⟩
    | initOk key iv hk hv => exact ⟨fun _ => rfl, fun hbad => absurd ⟨hk, hv⟩ hbad⟩
    | _ => rfl
  · obtain he | ⟨i, v, r, hd, hx, hc⟩ | ⟨b, rest, hh, rfl⟩ := step_engine h
    · exact absurd (congrArg Engine.lifecycle he) hne
    · obtain ⟨rfl, hl⟩ | ⟨key, iv, rfl, hok, hl⟩ := hc.lifecycle_change hne
      · exact .inr (.inl ⟨hl, hd, hx⟩)
      · exact .inr (.inr ⟨hl, key, iv, hok, hd, hx⟩)
    · exact .inl ⟨rfl, b, rest, hh, rfl⟩

/-- Settles O48: a command's effect keeps the canonical form, and the reset tables have it (R21, R22). -/
theorem stepKeepsTablesCanonical : Obligations.StepKeepsTablesCanonical := by
  intro s t hcan h
  obtain he | ⟨i, v, r, -, -, hc⟩ | ⟨b, rest, -, rfl⟩ := step_engine h
  · rwa [he]
  · exact tablesCanonical_of_effect hc hcan
  · rfl

/-- Settles O49: a command only adds to `contract_violation`, and no host action changes it (R30). -/
theorem ghostFlagsAreSticky : Obligations.GhostFlagsAreSticky := by
  intro s t h
  obtain rfl | ⟨i, -, hd, hx⟩ | ⟨a, rest, -, ha⟩ := step_next h
  · exact ⟨id, id, fun h0 h1 => by simp [h0] at h1⟩
  · obtain ⟨-, e, v, r, hc, rfl⟩ := exec_next hx
    refine ⟨fun h1 => by simp [h1], id, fun h0 h1 => ?_⟩
    have hv : v = true := by simpa [h0] using h1
    obtain ⟨⟨d, rfl⟩, hw⟩ := hc.violation_iff.1 hv
    exact ⟨hw, d, hd⟩
  · obtain ⟨hcv, hhf⟩ := hostAct_ghostFlags ha
    exact ⟨hcv.trans, hhf, fun h0 h1 => by simp [hcv, h0] at h1⟩

/-- Settles O50: a step of `j` sets entry `j` alone, so entry `k` is what it was, and two such writes commute (R36). -/
theorem instancesShareNothing : Obligations.InstancesShareNothing := by
  intro j k sys sys₁ hjk h
  obtain ⟨t, ht, rfl⟩ := systemStep_next_iff.1 h
  have hk : (sys.set j t)[k]? = sys[k]? := List.getElem?_set_ne hjk
  refine ⟨hk, fun f => by rw [systemStep_fault_iff, systemStep_fault_iff, hk], fun sys₂ h₂ => ?_⟩
  obtain ⟨u, hu, rfl⟩ := systemStep_next_iff.1 h₂
  rw [hk] at hu
  have hj : (sys.set k u)[j]? = sys[j]? := List.getElem?_set_ne hjk.symm
  exact ⟨sys.set k u, systemStep_next_iff.2 ⟨u, hu, rfl⟩,
    systemStep_next_iff.2 ⟨t, by rwa [hj], List.set_comm t u hjk⟩⟩

/-- Settles O30: the check for the reserved code stands before every command (93 U8). -/
theorem reservedLifecycleIsStuck : Obligations.ReservedLifecycleIsStuck := fun i _ h => exec_of_reserved i h

/-- Settles O47: R38's table, value by value. -/
theorem resetMeetsTheEngineInvariant : Obligations.ResetMeetsTheEngineInvariant :=
  ⟨engineInvariant_reset, rfl, fun p => ⟨Memory.read_nil p, Memory.read_nil p⟩, rfl, rfl, rfl, rfl⟩

end Sys2Proof.Safety
end

section
/-! PROOFS. The frame decoder undoes the encoder (R88). -/

namespace Sys2Proof

/-- The frame of a command a frame can carry decodes to it, whatever bytes follow (R72, R78, R79, R83). -/
theorem decodeFrame_encode_append {i : Instr} (h : i.wf = true) (rest : List Byte) :
    decodeFrame (encode i ++ rest) = .ok (i, rest) := by
  cases i with
  | init key iv =>
    obtain ⟨hk, hv⟩ := Bool.and_eq_true_iff.1 h
    simp only [encode, List.cons_append, List.append_assoc, decodeFrame_init, decodeInit, takeField_le16 hk,
      takeField_le16 hv]
  | xform d => rfl
  | wipe => rfl
  | reserved op => exact decodeFrame_reserved h rest

theorem decodeFrame_encode {i : Instr} (h : i.wf = true) : decodeFrame (encode i) = .ok (i, []) := by
  simpa using decodeFrame_encode_append h []

end Sys2Proof
end

section
/-! PROOFS. The model refines the machine over functions: the swap, the key schedule, the update step of XFORM, and with
them the effect of each command (R10, R103, R120, R150, R164). -/

namespace Sys2Proof.Safety

open Sys2Proof.Machine

/-- Both ends of a swap read the same entry where they meet, so the order of the tests does not matter (R10). -/
theorem read_swap_eq_absSwap {m : Memory} (h : Memory.wf m = true) (p q : Byte) :
    Memory.read (Memory.swap m p q) = absSwap (Memory.read m) p q := by
  funext r
  rw [Memory.read_swap h, absSwap]
  split_ifs with hq hp
  · rw [← hq, ← hp]
  · rfl
  · rfl
  · rfl

/-! The key schedule. -/

/-- The table of functions and the accumulator that a schedule in progress stands for. -/
def absTable (tj : Memory × Byte) : (Byte → Byte) × Byte := (Memory.read tj.1, tj.2)

/-- KSA's table and accumulator after its first `n` iterations. -/
def ksaAfter (K : List Byte) (n : Nat) : Memory × Byte :=
  ((List.range n).map (BitVec.ofNat 8)).foldl (ksaStep K) (Memory.identity, 0x00)

theorem ksaAfter_succ (K : List Byte) (n : Nat) : ksaAfter K (n + 1) = ksaStep K (ksaAfter K n) (BitVec.ofNat 8 n) := by
  simp only [ksaAfter, List.range_succ, List.map_append, List.map_cons, List.map_nil, List.foldl_append, List.foldl_cons,
    List.foldl_nil]

theorem ksaAfter_wf (K : List Byte) (n : Nat) : Memory.wf (ksaAfter K n).1 = true :=
  ksaFold_wf K _ _ Memory.identity_wf

theorem ksa_eq_ksaAfter (K : List Byte) : ksa K = (ksaAfter K 256).1 := by
  unfold ksa ksaAfter allBytes Config.tableSize
  rfl

theorem absTable_ksaAfter (K : List Byte) {n : Nat} (h : n ≤ 256) : absTable (ksaAfter K n) = absSchedule K n := by
  induction n with
  | zero => exact Prod.ext (funext Memory.read_identity) rfl
  | succ n ih =>
    have hn : (BitVec.ofNat 8 n).toNat = n := by
      rw [BitVec.toNat_ofNat]
      omega
    rw [ksaAfter_succ, absSchedule, ← ih (by omega)]
    simp only [absTable, ksaStep, read_swap_eq_absSwap (ksaAfter_wf K n), scheduleByte, hn]

/-- KSA on canonical memories is KSA on functions (R103). -/
theorem read_ksa_eq_absKsa (K : List Byte) : Memory.read (ksa K) = absKsa K := by
  rw [ksa_eq_ksaAfter, absKsa, ← absTable_ksaAfter K (le_refl 256), absTable]

/-! The engines the commands leave, as records over functions. -/

theorem absEngine_keyed (key iv : List Byte) :
    absEngine (Engine.keyed key iv) =
      { sk := absKsa key, sv := absKsa iv, cursor := 0, accKey := 0, accIv := 0, life := .ready } := by
  simp [absEngine, read_ksa_eq_absKsa]

theorem absEngine_wiped :
    absEngine Engine.wiped =
      { sk := fun _ => 0, sv := fun _ => 0, cursor := 255, accKey := 0, accIv := 0, life := .wiped } := by
  simp [absEngine]

theorem absEngine_advance {e : Engine} (h : tablesCanonical e = true) :
    absEngine e.advance = (absEngine e).advance := by
  obtain ⟨hk, hv⟩ := tablesCanonical_iff.1 h
  simp only [absEngine, AbsEngine.advance, Engine.advance_sk, Engine.advance_sv, Engine.advance_cursor,
    Engine.advance_accumKey, Engine.advance_accumIv, Engine.advance_lifecycle, read_swap_eq_absSwap hk,
    read_swap_eq_absSwap hv]

theorem keystream_absEngine (e : Engine) : (absEngine e).keystream = e.keystream := rfl

/-- A command's effect is what the machine over functions does: the same response, and an engine that stands for the
one after the command. -/
theorem effect_refines {e e' : Engine} {i : Instr} {v : Bool} {r : Resp} (hcan : tablesCanonical e = true)
    (h : CommandEffect e i e' v r) : absEngine e' = (absEngine e).after i ∧ r = (absEngine e).answer i := by
  cases h with
  | initBadKey key iv hk =>
    have hkey : key.length < 1 ∨ 256 < key.length := by omega
    have hany : key.length < 1 ∨ 256 < key.length ∨ iv.length < 1 ∨ 256 < iv.length := by omega
    exact ⟨(if_pos hany).symm, (if_pos hkey).symm⟩
  | initBadIv key iv hk hv =>
    have hkey : ¬(key.length < 1 ∨ 256 < key.length) := by omega
    have hiv : iv.length < 1 ∨ 256 < iv.length := by omega
    have hany : key.length < 1 ∨ 256 < key.length ∨ iv.length < 1 ∨ 256 < iv.length := by omega
    exact ⟨(if_pos hany).symm, ((if_neg hkey).trans (if_pos hiv)).symm⟩
  | initOk key iv hk hv =>
    have hkey : ¬(key.length < 1 ∨ 256 < key.length) := by omega
    have hiv : ¬(iv.length < 1 ∨ 256 < iv.length) := by omega
    have hany : ¬(key.length < 1 ∨ 256 < key.length ∨ iv.length < 1 ∨ 256 < iv.length) := by omega
    exact ⟨(absEngine_keyed key iv).trans (if_neg hany).symm, ((if_neg hkey).trans (if_neg hiv)).symm⟩
  | xformNotReady d hu => exact ⟨(if_pos hu).symm, (if_pos hu).symm⟩
  | xformRuns d hu =>
    refine ⟨(absEngine_advance hcan).trans (if_neg hu).symm, ?_⟩
    rw [← keystream_absEngine, absEngine_advance hcan]
    exact (if_neg hu).symm
  | wipe => exact ⟨absEngine_wiped, rfl⟩
  | reserved op => exact ⟨rfl, rfl⟩

/-- No command leads to the reserved LIFECYCLE code (R28). -/
theorem effect_lifecycle_ne_reserved {e e' : Engine} {i : Instr} {v : Bool} {r : Resp} (h : CommandEffect e i e' v r)
    (hl : e.lifecycle ≠ .reserved) : e'.lifecycle ≠ .reserved := by
  cases h with
  | initOk key iv => simp
  | wipe => simp
  | _ => exact hl

end Sys2Proof.Safety
end

section
/-! PROOFS. One command of a host's program, move by move: its frame is sent, it runs, its response is read (R201). -/

namespace Sys2Proof.Safety

open Sys2Proof.Machine

variable {s : State}

theorem step_send_of_idle {bytes : List Byte} {rest : List HostAction} (h : idle s) (hh : s.host = .send bytes :: rest) :
    step s = .next { s with frameBuf := bytes, host := rest } := by
  obtain ⟨hf, hr⟩ := h
  rw [step_idle hf, hostTurn_cons hh]
  simp [hostAct, State.hostSend, hf, hr]

theorem step_received_frame {i : Instr} (hi : i.wf = true) (h : idle s) (hp : s.resetPreempts = false) :
    step { s with frameBuf := encode i } = exec i s := by
  obtain ⟨hf, hr⟩ := h
  rw [step_command (s := { s with frameBuf := encode i }) hp hr (decodeFrame_encode hi), ← hf]

theorem step_take_of_unread {rest : List HostAction} (hr : s.respPort ≠ []) (hh : s.host = .take :: rest) :
    step s = .next { s with respPort := [], observed := s.observed ++ [s.respPort], host := rest } := by
  have hp : s.resetPreempts = false := by simp [State.resetPreempts, hh]
  rw [step_unread hp hr, hostTurn_cons hh]
  simp [hostAct, State.hostTake, hr]

/-- The state an idle machine is in when a command has had its effect and the host has read the response. -/
def answered (s : State) (e : Engine) (v : Bool) (r : Resp) : State :=
  { s with engine := e, contractViolation := s.contractViolation || v, observed := s.observed ++ [encodeResp r] }

@[simp] theorem answered_engine (s : State) (e : Engine) (v : Bool) (r : Resp) : (answered s e v r).engine = e := rfl
@[simp] theorem answered_observed (s : State) (e : Engine) (v : Bool) (r : Resp) :
    (answered s e v r).observed = s.observed ++ [encodeResp r] := rfl

/-- A command that the host sends and whose response it reads takes three steps, and the rest of the host's actions is
left (R58, R201). -/
theorem runsTo_answered {e : Engine} {i : Instr} {v : Bool} {r : Resp} (hi : i.wf = true) (hs : waiting s)
    (h : CommandEffect s.engine i e v r) (rest : List HostAction) :
    runsTo 3 (withHost s (sendAndTake i ++ rest)) (withHost (answered s e v r) rest) := by
  obtain ⟨hidle, hl⟩ := hs
  have hsend := step_send_of_idle (s := withHost s (sendAndTake i ++ rest)) hidle rfl
  have hrun := (step_received_frame (s := withHost s (.take :: rest)) hi hidle rfl).trans
    (exec_of_effect (s := withHost s (.take :: rest)) hl h)
  have htake := step_take_of_unread (s := (withHost s (.take :: rest)).effect e v r) (by simp) rfl
  have hend : { (withHost s rest).effect e v r with
      respPort := [], observed := s.observed ++ [s.respPort ++ encodeResp r] } = withHost (answered s e v r) rest := by
    simp [withHost, answered, State.effect, hidle.2]
  exact runsTo_succ hsend (runsTo_succ hrun (runsTo_succ htake (congrArg Host.Outcome.next hend)))

theorem waiting_answered {e : Engine} {i : Instr} {v : Bool} {r : Resp} (hs : waiting s)
    (h : CommandEffect s.engine i e v r) : waiting (answered s e v r) :=
  ⟨hs.1, effect_lifecycle_ne_reserved h hs.2⟩

end Sys2Proof.Safety
end

section
/-! PROOFS. The statement about the order of commands (20_memory.md), settled. -/

namespace Sys2Proof.Safety

open Sys2Proof.Machine

/-- Settles O32, by induction on the commands: each runs in three steps to a waiting machine whose engine and response
are those of the machine over functions. -/
theorem commandSequenceRunsInOrder : Obligations.CommandSequenceRunsInOrder := by
  intro is after
  induction is with
  | nil => exact fun s _ hs _ => ⟨withHost s after, runsTo_zero _, hs, rfl, rfl, (List.append_nil _).symm⟩
  | cons i is ih =>
    intro s hwf hs hcan
    obtain ⟨hi, his⟩ := List.forall_mem_cons.1 hwf
    obtain ⟨e, v, r, heff, -⟩ := exec_of_legal i hs.2
    obtain ⟨hengine, rfl⟩ := effect_refines hcan heff
    obtain ⟨t, hrun, hwait, hhost, hafter, hobs⟩ :=
      ih (answered s e v _) his (waiting_answered hs heff) (tablesCanonical_of_effect heff hcan)
    refine ⟨t, ?_, hwait, hhost, ?_, ?_⟩
    · rw [List.length_cons, Nat.mul_succ, Nat.add_comm]
      exact runsTo_add (runsTo_answered hi hs heff (hostProgram is ++ after)) hrun
    · rw [hafter, answered_engine, hengine, AbsEngine.afterAll]
    · simp [hobs, hengine, AbsEngine.answers]

end Sys2Proof.Safety
end

section
/-! PROOFS. The frame decoder read backwards (R71 to R79, R88): whatever decodes is the frame of its command, so a frame
cut short decodes to nothing, and the opcode byte and the fields of a frame can be read off its encoding. -/

namespace Sys2Proof

theorem isReservedOpcode_iff {op : Byte} : isReservedOpcode op = true ↔ op ≠ 0x01 ∧ op ≠ 0x02 ∧ op ≠ 0x03 := by
  simp only [isReservedOpcode, Bool.and_eq_true, bne_iff_ne, and_assoc]

/-- The decoder's four branches, by the opcode byte (R71, R83). -/
theorem opcode_cases (op : Byte) : op = 0x01 ∨ op = 0x02 ∨ op = 0x03 ∨ isReservedOpcode op = true := by
  rw [isReservedOpcode_iff]
  tauto

theorem decodeInit_ok {bs rest : List Byte} {i : Instr} (h : decodeInit bs = .ok (i, rest)) :
    i.wf = true ∧ 0x01 :: bs = encode i ++ rest := by
  unfold decodeInit at h
  split at h
  · cases h
  · next key bs' hkey =>
    split at h
    · cases h
    · next iv rest' hiv =>
      cases h
      obtain ⟨rfl, hk⟩ := takeField_ok hkey
      obtain ⟨rfl, hv⟩ := takeField_ok hiv
      exact ⟨Bool.and_eq_true_iff.2 ⟨hk, hv⟩, by simp [encode]⟩

theorem decodeData_ok {bs rest : List Byte} {i : Instr} (h : decodeData bs = .ok (i, rest)) :
    i.wf = true ∧ 0x02 :: bs = encode i ++ rest := by
  match bs, h with
  | d :: _, rfl => exact ⟨rfl, rfl⟩

/-- Whatever decodes is the frame of a command a frame can carry, with the bytes after it (R88). -/
theorem decodeFrame_ok {bs rest : List Byte} {i : Instr} (h : decodeFrame bs = .ok (i, rest)) :
    i.wf = true ∧ bs = encode i ++ rest := by
  match bs, h with
  | [], h => cases h
  | op :: bs, h =>
    obtain rfl | rfl | rfl | hop := opcode_cases op
    · exact decodeInit_ok h
    · exact decodeData_ok h
    · cases h
      exact ⟨rfl, rfl⟩
    · rw [decodeFrame_reserved hop] at h
      cases h
      exact ⟨hop, rfl⟩

/-- The law of a frame's first byte and length, for every command (R71, R75). -/
theorem encode_head?_and_length (i : Instr) : Laws.Encoding.Statement i := by
  cases i with
  | init key iv => exact Laws.Encoding.init key iv
  | xform d => exact Laws.Encoding.xform d
  | wipe => exact Laws.Encoding.wipe
  | reserved op => exact Laws.Encoding.reserved op

/-- The first byte of whatever decodes is its command's opcode byte (R71). -/
theorem decodeFrame_opcode {op : Byte} {bs rest : List Byte} {i : Instr} (h : decodeFrame (op :: bs) = .ok (i, rest)) :
    op = i.opcode := by
  have hhead := congrArg List.head? (decodeFrame_ok h).2
  rw [List.head?_append_of_ne_nil _ (encode_ne_nil i), (encode_head?_and_length i).1] at hhead
  exact Option.some.inj hhead

/-- A decoded frame takes at least its opcode byte, so what is left is shorter. -/
theorem length_lt_of_decodeFrame_ok {bs rest : List Byte} {i : Instr} (h : decodeFrame bs = .ok (i, rest)) :
    rest.length < bs.length := by
  have hpos := List.length_pos_of_ne_nil (encode_ne_nil i)
  rw [(decodeFrame_ok h).2, List.length_append]
  omega

/-- The decoder answers `empty` on no byte only; a frame that has begun is decoded or incomplete (R79). -/
theorem eq_nil_of_decodeFrame_empty {bs : List Byte} (h : decodeFrame bs = .error .empty) : bs = [] := by
  match bs, h with
  | [], _ => rfl
  | op :: bs, h =>
    obtain rfl | rfl | rfl | hop := opcode_cases op
    · rw [decodeFrame_init, decodeInit] at h
      split at h
      · next hkey => cases takeField_error hkey; cases h
      · split at h
        · next hiv => cases takeField_error hiv; cases h
        · cases h
    · cases bs <;> cases h
    · cases h
    · rw [decodeFrame_reserved hop] at h
      cases h

/-- A frame cut short is no whole frame: bytes that decode, decode the same with more bytes behind them, so the cut frame
would decode to the whole frame's command with nothing behind it (R79). -/
theorem decodeFrame_cut {i : Instr} (hi : i.wf = true) {n : Nat} (hn : n < (encode i).length) (j : Instr)
    (rest : List Byte) : decodeFrame ((encode i).take n) ≠ .ok (j, rest) := by
  intro h
  obtain ⟨hj, heq⟩ := decodeFrame_ok h
  have hwhole : encode i = encode j ++ (rest ++ (encode i).drop n) := by
    rw [← List.append_assoc, ← heq, List.take_append_drop]
  have hdec := decodeFrame_encode hi
  rw [hwhole, decodeFrame_encode_append hj, Except.ok.injEq, Prod.mk.injEq] at hdec
  have hdrop : n ≥ (encode i).length := List.drop_eq_nil_iff.1 (List.append_eq_nil_iff.1 hdec.2).2
  omega

/-- The two bytes of a count that a length field can hold (R76). -/
theorem exists_le16 {n : Nat} (h : n ≤ Config.lenFieldMax) :
    ∃ lo hi : Byte, lo.toNat + 256 * hi.toNat = n ∧ le16 n = [lo, hi] :=
  ⟨_, _, ofLe16_le16 h, rfl⟩

/-- A response that reports a length a frame can carry reports it whole, low byte first (R80). -/
theorem exists_report_length {n : Nat} (h : n ≤ Config.lenFieldMax) (st : Byte) :
    ∃ lo hi : Byte, st :: le16 (BitVec.ofNat 16 n).toNat = [st, lo, hi] ∧ lo.toNat + 256 * hi.toNat = n := by
  obtain ⟨lo, hi, hn, hle⟩ := exists_le16 h
  have hfits : n % 2 ^ 16 = n := Nat.mod_eq_of_lt (Nat.lt_succ_of_le h)
  exact ⟨lo, hi, by rw [BitVec.toNat_ofNat, hfits, hle], hn⟩

/-- An INIT frame, field by field (R72). -/
theorem exists_encode_init {key iv : List Byte} (hk : key.length ≤ Config.lenFieldMax)
    (hv : iv.length ≤ Config.lenFieldMax) :
    ∃ kLo kHi vLo vHi : Byte, kLo.toNat + 256 * kHi.toNat = key.length ∧ vLo.toNat + 256 * vHi.toNat = iv.length ∧
      encode (.init key iv) = 0x01 :: kLo :: kHi :: key ++ vLo :: vHi :: iv := by
  obtain ⟨kLo, kHi, hkey, hkl⟩ := exists_le16 hk
  obtain ⟨vLo, vHi, hiv, hvl⟩ := exists_le16 hv
  exact ⟨kLo, kHi, vLo, vHi, hkey, hiv, by simp [encode, hkl, hvl]⟩

theorem wf_init_iff {key iv : List Byte} :
    (Instr.init key iv).wf = true ↔ key.length ≤ Config.lenFieldMax ∧ iv.length ≤ Config.lenFieldMax := by
  simp [Instr.wf, fitsLenField]

end Sys2Proof
end

section
/-! PROOFS. The stream decoder (R88): one frame at a time, with fuel for every byte. -/

namespace Sys2Proof

theorem decodeStreamFuel_error {bs : List Byte} {e : FrameFault} (h : decodeFrame bs = .error e) (fuel : Nat) :
    decodeStreamFuel fuel bs = ([], bs) := by
  cases fuel with
  | zero => rfl
  | succ fuel => simp only [decodeStreamFuel, h]

theorem decodeStreamFuel_ok {bs rest : List Byte} {i : Instr} (h : decodeFrame bs = .ok (i, rest)) (fuel : Nat) :
    decodeStreamFuel (fuel + 1) bs = (i :: (decodeStreamFuel fuel rest).1, (decodeStreamFuel fuel rest).2) := by
  simp only [decodeStreamFuel, h]

/-- The stream is the frames of its commands, each one a frame can carry, and then a leftover that decodes to nothing. -/
theorem decodeStreamFuel_sound {fuel : Nat} {bs : List Byte} (hfuel : bs.length ≤ fuel) :
    bs = (decodeStreamFuel fuel bs).1.flatMap encode ++ (decodeStreamFuel fuel bs).2 ∧
      (∀ i ∈ (decodeStreamFuel fuel bs).1, i.wf = true) ∧ ∃ e, decodeFrame (decodeStreamFuel fuel bs).2 = .error e := by
  induction fuel generalizing bs with
  | zero =>
    obtain rfl := List.length_eq_zero_iff.1 (Nat.le_zero.1 hfuel)
    exact ⟨rfl, nofun, .empty, rfl⟩
  | succ fuel ih =>
    match h : decodeFrame bs with
    | .error e =>
      rw [decodeStreamFuel_error h]
      exact ⟨rfl, nofun, e, h⟩
    | .ok (i, rest) =>
      have hlt := length_lt_of_decodeFrame_ok h
      obtain ⟨hi, hbs⟩ := decodeFrame_ok h
      obtain ⟨hrest, hwf, hleft⟩ := ih (bs := rest) (by omega)
      rw [decodeStreamFuel_ok h]
      refine ⟨?_, List.forall_mem_cons.2 ⟨hi, hwf⟩, hleft⟩
      rw [List.flatMap_cons, List.append_assoc, ← hrest, hbs]

/-- The frames of a command sequence decode to it, and a tail that decodes to nothing is left over. -/
theorem decodeStreamFuel_flatMap_encode {is : List Instr} {tail : List Byte} {e : FrameFault}
    (hwf : ∀ i ∈ is, i.wf = true) (htail : decodeFrame tail = .error e) {fuel : Nat}
    (hfuel : (is.flatMap encode ++ tail).length ≤ fuel) :
    decodeStreamFuel fuel (is.flatMap encode ++ tail) = (is, tail) := by
  induction is generalizing fuel with
  | nil => exact decodeStreamFuel_error htail fuel
  | cons i is ih =>
    obtain ⟨hi, his⟩ := List.forall_mem_cons.1 hwf
    have hpos := List.length_pos_of_ne_nil (encode_ne_nil i)
    rw [List.flatMap_cons, List.append_assoc] at hfuel ⊢
    rw [List.length_append] at hfuel
    obtain ⟨fuel, rfl⟩ : ∃ k, fuel = k + 1 := ⟨fuel - 1, by omega⟩
    rw [decodeStreamFuel_ok (decodeFrame_encode_append hi _), ih his (by omega)]

theorem decodeStream_flatMap_encode {is : List Instr} (hwf : ∀ i ∈ is, i.wf = true) :
    decodeStream (is.flatMap encode) = (is, []) := by
  simpa [decodeStream] using decodeStreamFuel_flatMap_encode (tail := []) hwf decodeFrame_nil (le_refl _)

end Sys2Proof
end

section
/-! PROOFS. A run of XFORMs out of UNINIT (R126, R127): its keystream and its last engine do not depend on the input. -/

namespace Sys2Proof.Safety

open Sys2Proof.Machine

/-- The bytes the next `n` XFORMs XOR to their inputs (R126). -/
def keystreamBytes : Engine → Nat → List Byte
  | _, 0 => []
  | e, n + 1 => e.advance.keystream :: keystreamBytes e.advance n

@[simp] theorem keystreamBytes_length (e : Engine) (n : Nat) : (keystreamBytes e n).length = n := by
  induction n generalizing e with
  | zero => rfl
  | succ n ih => rw [keystreamBytes, List.length_cons, ih]

/-- The machine after one XFORM out of UNINIT whose response the host has read. -/
def xformed (s : State) (d : Byte) : State :=
  answered s s.engine.advance (s.engine.lifecycle == .wiped) (.okData (d ^^^ s.engine.advance.keystream))

@[simp] theorem foldl_xformed_engine (D : List Byte) (s : State) :
    (D.foldl xformed s).engine = Engine.advance^[D.length] s.engine := by
  induction D generalizing s with
  | nil => rfl
  | cons d D ih => exact ih _

@[simp] theorem foldl_xformed_observed (D : List Byte) (s : State) :
    (D.foldl xformed s).observed
      = s.observed ++ dataFrames (D.zipWith (· ^^^ ·) (keystreamBytes s.engine D.length)) := by
  induction D generalizing s with
  | nil => exact (List.append_nil _).symm
  | cons d D ih => simp [ih, xformed, keystreamBytes, dataFrames, encodeResp]

/-- XFORMs out of UNINIT run to their end in three steps each, and leave the rest of the host's actions (R58, R120). -/
theorem runsTo_xforms {s : State} (D : List Byte) (hs : waiting s) (hu : s.engine.lifecycle ≠ .uninit)
    (after : List HostAction) :
    runsTo (3 * D.length) (withProgram s (D.map .xform) after) (withHost (D.foldl xformed s) after) := by
  induction D generalizing s with
  | nil => exact runsTo_zero _
  | cons d D ih =>
    have heff := CommandEffect.xformRuns (e := s.engine) d hu
    rw [List.length_cons, Nat.mul_succ, Nat.add_comm]
    exact runsTo_add (runsTo_answered rfl hs heff (hostProgram (D.map .xform) ++ after))
      (ih (s := xformed s d) (waiting_answered hs heff) hu)

/-- An input of zeros reads the keystream itself. -/
theorem zipWith_xor_replicate_zero {n : Nat} {ks : List Byte} (h : ks.length = n) :
    (List.replicate n 0x00).zipWith (· ^^^ ·) ks = ks := by
  subst h
  induction ks with
  | nil => rfl
  | cons k ks ih =>
    rw [List.length_cons, List.replicate_succ, List.zipWith_cons_cons, ih]
    exact congrArg (· :: ks) BitVec.zero_xor

end Sys2Proof.Safety
end

section
/-! PROOFS. Where the CORE does not run a command: the host has its turn, or bytes race (R63, R79, R201). -/

namespace Sys2Proof.Machine

variable {s : State}

theorem resetPreempts_eq_false_iff : s.resetPreempts = false ↔ s.host.head? ≠ some (.reset true) := beq_eq_false_iff_ne

/-- While a frame is incomplete, the host has its turn; if it does nothing more, the CORE is stuck (R79, R202). -/
theorem step_incomplete (hp : s.resetPreempts = false) (hr : s.respPort = [])
    (hd : decodeFrame s.frameBuf = .error .incomplete) : step s = hostTurn (.fault .frameIncomplete) s := by
  simp [step, hp, coreTurn, hr, hd]

/-- Bytes behind a complete frame are a race, and the frame does not run (R63, R201). -/
theorem step_race {i : Instr} {rest : List Byte} (hp : s.resetPreempts = false) (hr : s.respPort = [])
    (hd : decodeFrame s.frameBuf = .ok (i, rest)) (hrest : rest ≠ []) : step s = .fault .commandRace := by
  obtain ⟨b, bs, rfl⟩ := List.exists_cons_of_ne_nil hrest
  simp [step, hp, coreTurn, hr, hd]

end Sys2Proof.Machine
end

section
/-! PROOFS. The statements about the encoding (30_encoding.md), settled. -/

namespace Sys2Proof.Safety

open Sys2Proof.Machine

/-- Settles O1: the decoder undoes the encoder, format by format. -/
theorem decodeEncodeRoundTrip : Obligations.DecodeEncodeRoundTrip := fun _ rest h => decodeFrame_encode_append h rest

/-- Settles O2: the decoder read backwards, and the length of the frame it took. -/
theorem decodedBytesAreTheFrame : Obligations.DecodedBytesAreTheFrame := by
  intro bs rest i h
  obtain ⟨hwf, rfl⟩ := decodeFrame_ok h
  exact ⟨hwf, rfl, by rw [List.length_append, (encode_head?_and_length i).2]⟩

/-- Settles O4: by induction on the fuel one way and on the commands the other, since every frame has a byte. -/
theorem streamDecodesFrameByFrame : Obligations.StreamDecodesFrameByFrame :=
  ⟨fun _ => decodeStreamFuel_sound (le_refl _), fun _ _ _ hwf htail =>
    decodeStreamFuel_flatMap_encode hwf htail (le_refl _)⟩

/-- Settles O3: a cut frame decodes to no command, and it is not empty. -/
theorem cutFrameIsIncomplete : Obligations.CutFrameIsIncomplete := by
  intro i n hi hpos hn
  match h : decodeFrame ((encode i).take n) with
  | .ok (j, rest) => exact absurd h (decodeFrame_cut hi hn j rest)
  | .error .incomplete => rfl
  | .error .empty =>
    have hlen := congrArg List.length (eq_nil_of_decodeFrame_empty h)
    rw [List.length_take, List.length_nil] at hlen
    omega

/-- Settles O5: the opcode byte is the decoded command's, and a reserved command's byte is none of 01, 02, 03. -/
theorem opcodeByteSelectsCommand : Obligations.OpcodeByteSelectsCommand := by
  intro op bs rest i h
  have hwf := (decodeFrame_ok h).1
  obtain rfl := decodeFrame_opcode h
  cases i with
  | reserved op =>
    obtain ⟨h1, h2, h3⟩ := isReservedOpcode_iff.1 hwf
    exact ⟨iff_of_false h1 nofun, iff_of_false h2 nofun, iff_of_false h3 nofun, iff_of_true ⟨h1, h2, h3⟩ rfl⟩
  | _ => simp [Instr.opcode]

/-- Settles O6: the fields are read off the frame's encoding (R72). -/
theorem initFrameFieldsAtTheirOffsets : Obligations.InitFrameFieldsAtTheirOffsets := by
  intro F rest key iv h
  obtain ⟨hwf, rfl⟩ := decodeFrame_ok h
  obtain ⟨hk, hv⟩ := wf_init_iff.1 hwf
  obtain ⟨kLo, kHi, vLo, vHi, hkey, hiv, henc⟩ := exists_encode_init hk hv
  rw [henc]
  have hvAt (p : Nat) : 5 + key.length + p = key.length + (p + 2) + 3 := by omega
  refine ⟨rfl, hkey.symm, fun p hp => ?_, ?_, fun p hp => ?_, ?_⟩
  · simp [Nat.add_comm 3, List.getElem?_append_left, hp]
  · simp [Nat.add_comm _ key.length, hiv]
  · simp [hvAt, List.getElem?_append_right, List.getElem?_append_left, hp]
  · simp [hvAt]

/-- Settles O26: by the cases of a command's effect; a length that a frame carries is given back whole by N. -/
theorem everyCommandAnswersOnce : Obligations.EveryCommandAnswersOnce := by
  intro i s hwf hl
  obtain ⟨e, v, r, heff, hx⟩ := exec_of_legal i hl
  refine ⟨_, encodeResp r, hx, rfl, ?_⟩
  cases heff with
  | initBadKey key iv hk =>
    obtain ⟨hk16, -⟩ := wf_init_iff.1 hwf
    have hkey : key.length < 1 ∨ 256 < key.length := by omega
    simpa only [hkey, if_true, encodeResp] using exists_report_length hk16 0x01
  | initBadIv key iv hk hv =>
    have hkey : ¬(key.length < 1 ∨ 256 < key.length) := by omega
    obtain ⟨-, hv16⟩ := wf_init_iff.1 hwf
    have hiv : iv.length < 1 ∨ 256 < iv.length := by omega
    simpa only [hkey, hiv, if_true, if_false, encodeResp] using exists_report_length hv16 0x02
  | initOk key iv hk hv =>
    have hkey : ¬(key.length < 1 ∨ 256 < key.length) := by omega
    have hiv : ¬(iv.length < 1 ∨ 256 < iv.length) := by omega
    simp only [hkey, hiv, if_false, encodeResp]
  | xformNotReady d hu =>
    simp only [hu, if_true, encodeResp]
  | xformRuns d hu =>
    simpa only [hu, if_false] using ⟨_, rfl⟩
  | wipe => rfl
  | reserved op => rfl

/-- Settles O51: a line's bytes are the frames of its expansion, so they decode to it; the rest is R86's table. -/
theorem assembledBytesDecodeToTheExpansion : Obligations.AssembledBytesDecodeToTheExpansion := by
  refine ⟨fun l hwf => decodeStream_flatMap_encode hwf, fun bs => ⟨rfl, rfl, rfl, List.flatMap_map ..⟩,
    fun x y => List.map_append, fun n => ⟨List.length_replicate, fun i hi => List.eq_of_mem_replicate hi⟩,
    fun d => ⟨rfl, rfl⟩, ⟨rfl, rfl⟩, fun b => rfl, fun key iv => ⟨rfl, rfl⟩, fun key iv hk hv => ?_⟩
  rw [show (AsmLine.init key iv).bytes = encode (.init key iv) from List.append_nil _]
  exact exists_encode_init hk hv

/-- Settles O52: both runs are XFORMs from the same engine, and XOR with the zeros of KEYSTREAM changes nothing. -/
theorem keystreamPseudoReadsTheKeystream : Obligations.KeystreamPseudoReadsTheKeystream := by
  intro P s hs hu
  have hks := runsTo_xforms (List.replicate P.length 0x00) hs hu []
  rw [List.length_replicate, List.map_replicate] at hks
  refine ⟨keystreamBytes s.engine P.length, _, _, keystreamBytes_length _ _, hks, ?_, runsTo_xforms P hs hu [], ?_, ?_⟩
  · refine (foldl_xformed_observed _ s).trans ?_
    rw [List.length_replicate, zipWith_xor_replicate_zero (keystreamBytes_length _ _)]
  · exact foldl_xformed_observed P s
  · simp [withHost]

/-- Settles O7: each response's frame reads back, N by its two bytes (R76). -/
theorem responseFramesReadBack : Obligations.ResponseFramesReadBack := by
  intro r
  cases r with
  | invalidKeySize n => exact ⟨congrArg (some ∘ Resp.invalidKeySize) (ofLe16_toHalf n), _, _, rfl, by decide⟩
  | invalidIvSize n => exact ⟨congrArg (some ∘ Resp.invalidIvSize) (ofLe16_toHalf n), _, _, rfl, by decide⟩
  | _ => exact ⟨rfl, _, _, rfl, by decide⟩

/-- Settles O42: the frame in the decoder decodes to its command, which then runs. -/
theorem stepRunsTheReceivedCommand : Obligations.StepRunsTheReceivedCommand := by
  intro s i hi hf hr hh
  exact step_command (resetPreempts_eq_false_iff.2 hh) hr (by rw [hf, decodeFrame_encode hi])

/-- Settles O43: each clause is a step in which no command runs, with the host's turn taken. -/
theorem stepWaitsOrStopsByName : Obligations.StepWaitsOrStopsByName := by
  intro s
  have noReset (hh : s.host = []) : s.resetPreempts = false := by simp [resetPreempts_eq_false_iff, hh]
  refine ⟨fun hh hf => ?_, fun hh hr hd => ?_, fun hh hr hf => ?_, fun bytes after hh hr => ?_,
    fun i rest hh hr hd hrest => step_race (resetPreempts_eq_false_iff.2 hh) hr hd hrest⟩
  · rw [step_idle hf, hostTurn_nil hh]
  · rw [step_incomplete (noReset hh) hr hd, hostTurn_nil hh]
  · rw [step_unread (noReset hh) hr, hostTurn_nil hh, if_neg hf]
  · rw [step_unread (by simp [resetPreempts_eq_false_iff, hh]) hr, hostTurn_cons hh]
    exact if_neg hr

/-- Settles O44: where no command waits, a step is the host's action. -/
theorem hostSendsAndReads : Obligations.HostSendsAndReads := by
  refine fun s after => ⟨fun bytes e hh hr hd => ?_, fun hh hr => step_take_of_unread hr hh⟩
  have hturn : ∀ o, hostTurn o s = .next { s with frameBuf := s.frameBuf ++ bytes, host := after } := fun o => by
    rw [hostTurn_cons hh]
    exact if_pos hr
  cases e with
  | empty => rw [step_idle (eq_nil_of_decodeFrame_empty hd), hturn]
  | incomplete => rw [step_incomplete (by simp [resetPreempts_eq_false_iff, hh]) hr hd, hturn]

end Sys2Proof.Safety
end

section
/-! PROOFS. INIT and its key schedule: the effect of an INIT at lengths in [1, 256], what of a key the schedule reads, and
the key under which it swaps nothing (R103, R108, R109). -/

namespace Sys2Proof.Safety

open Sys2Proof.Machine

/-- An INIT at lengths in [1, 256] that answers a next state leaves the engine its key and IV give (R103, R104, R105). -/
theorem exec_init_engine {key iv : List Byte} {s t : State} (hok : lengthsOk key iv)
    (h : exec (.init key iv) s = .next t) : t.engine = Engine.keyed key iv := by
  obtain ⟨hk, hv⟩ := hok
  obtain ⟨-, e, v, r, heff, rfl⟩ := exec_next h
  exact (heff.unique (.initOk key iv hk hv)).1

/-- An iteration of KSA reads the key only through its schedule byte (R103). -/
theorem ksa_congr {K K' : List Byte} (h : ∀ i, scheduleByte K i = scheduleByte K' i) : ksa K = ksa K' := by
  have hstep : ksaStep K = ksaStep K' := by
    funext tj i
    simp only [ksaStep, h]
  unfold ksa
  rw [hstep]

theorem absSwap_self (T : Byte → Byte) (p : Byte) : absSwap T p p = T := by
  funext r
  rw [absSwap]
  split_ifs with h
  · rw [h]
  · rfl

/-- An iteration whose new `j` is its own position leaves the table as it is (R103). -/
theorem absSchedule_succ_of_fixed {K : List Byte} {n : Nat}
    (h : (absSchedule K n).2 + (absSchedule K n).1 (BitVec.ofNat 8 n) + K.getD (n % K.length) 0 = BitVec.ofNat 8 n) :
    absSchedule K (n + 1) = ((absSchedule K n).1, BitVec.ofNat 8 n) := by
  simp only [absSchedule, h, absSwap_self]

/-- Under K_ID `j` follows the position, `(i - 1) + i + (1 - i) = i`, so every swap is of an entry with itself (R109). -/
theorem absSchedule_identityKey {K : List Byte} (hlen : K.length = 256) (h0 : K.getD 0 0 = 0)
    (hK : ∀ i, 1 ≤ i → i < 256 → K.getD i 0 = 1 - BitVec.ofNat 8 i) {n : Nat} (hn : n < 256) :
    absSchedule K (n + 1) = (fun p => p, BitVec.ofNat 8 n) := by
  induction n with
  | zero =>
    refine absSchedule_succ_of_fixed ?_
    simp only [absSchedule, Nat.zero_mod, h0]
    rfl
  | succ n ih =>
    have hprev := ih (by omega)
    have hkey : K.getD ((n + 1) % K.length) 0 = 1 - BitVec.ofNat 8 (n + 1) := by
      rw [hlen, Nat.mod_eq_of_lt hn]
      exact hK _ (by omega) hn
    refine (absSchedule_succ_of_fixed ?_).trans (by rw [hprev])
    rw [hprev, hkey]
    bv_omega

end Sys2Proof.Safety
end

section
/-! PROOFS. The statements about INIT and the refinement of every command (40_init.md), settled. -/

namespace Sys2Proof.Safety

open Sys2Proof.Machine

/-- Settles O31: a command at a legal LIFECYCLE has one effect, which refines the machine over functions. -/
theorem commandsRefineTheAbstractCore : Obligations.CommandsRefineTheAbstractCore := by
  intro i s hl hcan
  obtain ⟨e, v, r, heff, hx⟩ := exec_of_legal i hl
  obtain ⟨hengine, rfl⟩ := effect_refines hcan heff
  exact ⟨_, hx, tablesCanonical_of_effect heff hcan, hengine, rfl⟩

/-- Settles O13: KSA refines the schedule on functions, and INIT leaves the engine of the two schedules. -/
theorem keyScheduleComputesKsa : Obligations.KeyScheduleComputesKsa := by
  refine ⟨fun K p => congrFun (read_ksa_eq_absKsa K) p, fun key iv s t hok h p => ?_⟩
  rw [exec_init_engine hok h, Engine.keyed_sk, Engine.keyed_sv, read_ksa_eq_absKsa, read_ksa_eq_absKsa]
  exact ⟨rfl, rfl⟩

/-- Settles O14: the identity is a permutation, and every iteration of KSA only swaps. -/
theorem keyScheduleIsPermutation : Obligations.KeyScheduleIsPermutation := isPermutation_ksa

/-- Settles O15: the schedule bytes of both keys are the same at every position. -/
theorem equalPeriodicKeysGiveEqualTables : Obligations.EqualPeriodicKeysGiveEqualTables :=
  fun _ _ h => ksa_congr fun i => h i.toNat i.isLt

/-- Settles O16: under K_ID no iteration of the schedule on functions moves an entry. -/
theorem identityKeyGivesIdentityTable : Obligations.IdentityKeyGivesIdentityTable := by
  intro K hlen h0 hK p
  rw [read_ksa_eq_absKsa, absKsa, absSchedule_identityKey hlen h0 hK (by omega)]

/-- Settles O10: INIT's effect at these lengths, as a state. -/
theorem initSucceeds : Obligations.InitSucceeds := by
  intro key iv s hl hk hv
  rw [exec_of_effect hl (.initOk key iv hk hv)]
  simp only [State.effect, Engine.keyed, encodeResp, Bool.or_false]

/-- Settles O17: the engine after INIT is a function of key and IV alone, with one schedule for each table. -/
theorem initTablesDependOnTheirOwnOperand : Obligations.InitTablesDependOnTheirOwnOperand := by
  intro key iv key' iv' s s' t t' hok hok' h h'
  rw [exec_init_engine hok h, exec_init_engine hok' h']
  simp only [Engine.keyed_sk, Engine.keyed_sv]
  exact ⟨congrArg ksa, congrArg ksa, congrArg₂ Engine.keyed, congrArg ksa⟩

end Sys2Proof.Safety
end

section
/-! PROOFS. The scrambled indices of XFORM are rotations of the cursor (R124). -/

namespace Sys2Proof.Machine

theorem xor_eq_or_of_and_eq_zero {x y : Byte} (h : x &&& y = 0) : x ^^^ y = x ||| y := by
  ext i hi
  have hbit : (x[i] && y[i]) = false := by simpa using congrArg (fun z : Byte => z[i]) h
  rw [BitVec.getElem_xor, BitVec.getElem_or]
  revert hbit
  cases x[i] <;> cases y[i] <;> decide

/-- What a rotation shifts out to the left lies below what it keeps (R124). -/
theorem shiftLeft_and_ushiftRight_eq_zero (c : Byte) {m n : Nat} (h : m + n = 8) : (c <<< m) &&& (c >>> n) = 0 := by
  ext i hi
  by_cases him : i < m
  · simp [him]
  · simp [BitVec.getLsbD_of_ge c (n + i) (by omega)]

theorem scrambleKey_eq_or (c : Byte) : scrambleKey c = (c <<< 5) ||| (c >>> 3) :=
  xor_eq_or_of_and_eq_zero (shiftLeft_and_ushiftRight_eq_zero c rfl)

theorem scrambleIv_eq_or (c : Byte) : scrambleIv c = (c <<< 3) ||| (c >>> 5) :=
  xor_eq_or_of_and_eq_zero (shiftLeft_and_ushiftRight_eq_zero c rfl)

theorem scrambleKey_eq_rotateLeft (c : Byte) : scrambleKey c = c.rotateLeft 5 := scrambleKey_eq_or c
theorem scrambleIv_eq_rotateLeft (c : Byte) : scrambleIv c = c.rotateLeft 3 := scrambleIv_eq_or c

/-- Two rotations by 8 places in all give the Byte back. -/
theorem rotateLeft_rotateLeft_of_add_eq {m n : Nat} (c : Byte) (hm : 0 < m) (hn : 0 < n) (h : m + n = 8) :
    (c.rotateLeft m).rotateLeft n = c := by
  refine BitVec.eq_of_getLsbD_eq fun i hi => ?_
  rw [BitVec.getLsbD_rotateLeft_of_le (by omega), BitVec.getLsbD_rotateLeft_of_le (by omega),
    BitVec.getLsbD_rotateLeft_of_le (by omega)]
  by_cases hin : i < n
  · simp [hin, show ¬8 - n + i < m by omega, show 8 - n + i < 8 by omega, show 8 - n + i - m = i by omega]
  · simp [hin, hi, show i - n < m by omega, show 8 - m + (i - n) = i by omega]

@[simp] theorem scrambleIv_scrambleKey (c : Byte) : scrambleIv (scrambleKey c) = c := by
  rw [scrambleIv_eq_rotateLeft, scrambleKey_eq_rotateLeft]
  exact rotateLeft_rotateLeft_of_add_eq c (by decide) (by decide) rfl

@[simp] theorem scrambleKey_scrambleIv (c : Byte) : scrambleKey (scrambleIv c) = c := by
  rw [scrambleIv_eq_rotateLeft, scrambleKey_eq_rotateLeft]
  exact rotateLeft_rotateLeft_of_add_eq c (by decide) (by decide) rfl

/-- Each index undoes the other, so each is a bijection of the cursor (R124). -/
theorem scrambleKey_bijective : Function.Bijective scrambleKey :=
  Function.bijective_iff_has_inverse.2 ⟨scrambleIv, scrambleIv_scrambleKey, scrambleKey_scrambleIv⟩

theorem scrambleIv_bijective : Function.Bijective scrambleIv :=
  Function.bijective_iff_has_inverse.2 ⟨scrambleKey, scrambleKey_scrambleIv, scrambleIv_scrambleKey⟩

theorem scrambleKey_eq_scrambleIv_iff :
    ∀ c : Byte, scrambleKey c = scrambleIv c ↔ c = 0x00 ∨ c = 0x55 ∨ c = 0xAA ∨ c = 0xFF := by decide +kernel

end Sys2Proof.Machine
end

section
/-! PROOFS. When an XFORM runs (R120, R163), what its update step does to the entries it swaps, to zero tables and to
equal tables (R120 to R123, R129, R131), and what many of them do to the cursor (R121). -/

namespace Sys2Proof.Machine

/-! The effect of an XFORM, in UNINIT and out of it. -/

/-- The only command that answers NOT_READY is an XFORM in UNINIT (R163). -/
theorem CommandEffect.of_notReady_status {e e' : Engine} {i : Instr} {v : Bool} {r : Resp} {payload : List Byte}
    (h : CommandEffect e i e' v r) (hr : encodeResp r = 0x03 :: payload) :
    (∃ d, i = .xform d) ∧ e.lifecycle = .uninit := by
  cases h with
  | xformNotReady d hu => exact ⟨⟨d, rfl⟩, hu⟩
  | _ => simp [encodeResp] at hr

/-- Out of UNINIT an XFORM has the effect of the update step (R120). -/
theorem exec_xform_runs {s : State} (d : Byte) (h : s.engine.lifecycle = .ready ∨ s.engine.lifecycle = .wiped) :
    exec (.xform d) s = .next
      (s.effect s.engine.advance (s.engine.lifecycle == .wiped) (.okData (d ^^^ s.engine.advance.keystream))) := by
  have hu : s.engine.lifecycle ≠ .uninit := by rcases h with h | h <;> simp [h]
  exact exec_of_effect (by rcases h with h | h <;> simp [h]) (.xformRuns d hu)

/-! The three readings of a table after a swap (R10). -/

theorem Memory.read_swap_left {m : Memory} (h : Memory.wf m = true) (p q : Byte) :
    Memory.read (Memory.swap m p q) p = Memory.read m q := by
  rw [Memory.read_swap h, if_pos rfl]
  split_ifs with hpq
  · rw [hpq]
  · rfl

theorem Memory.read_swap_right {m : Memory} (h : Memory.wf m = true) (p q : Byte) :
    Memory.read (Memory.swap m p q) q = Memory.read m p := by
  rw [Memory.read_swap h, if_pos rfl]

theorem Memory.read_swap_of_ne {m : Memory} (h : Memory.wf m = true) {p q r : Byte} (hp : r ≠ p) (hq : r ≠ q) :
    Memory.read (Memory.swap m p q) r = Memory.read m r := by
  rw [Memory.read_swap h, if_neg hq, if_neg hp]

/-! Zero tables: the wipe values, or what XFORMs make of them. -/

/-- The tables and the accumulators are zero (R131). -/
def Engine.Zeroed (e : Engine) : Prop := e.sk = [] ∧ e.sv = [] ∧ e.accumKey = 0x00 ∧ e.accumIv = 0x00

theorem Engine.zeroed_wiped : Engine.wiped.Zeroed := ⟨Engine.wiped_sk, Engine.wiped_sv, rfl, rfl⟩

/-- On zero tables the update step adds and swaps zeros, so that it only moves the cursor (R131). -/
theorem Engine.Zeroed.advance_eq {e : Engine} (h : e.Zeroed) : e.advance = { e with cursor := e.cursor + 1 } := by
  obtain ⟨sk, sv, c, aK, aI, l⟩ := e
  obtain ⟨rfl, rfl, rfl, rfl⟩ := h
  simp [Engine.advance, Engine.bumpCursor, Engine.accumulate, Engine.swapTables]

theorem Engine.Zeroed.advance {e : Engine} (h : e.Zeroed) : e.advance.Zeroed := by
  rw [h.advance_eq]
  exact h

theorem Engine.Zeroed.keystream {e : Engine} (h : e.Zeroed) : e.keystream = 0x00 := by
  rw [Engine.keystream, h.1, Memory.read_nil]

/-! Equal tables: what INIT with key = iv leaves. -/

/-- The two tables are equal, and so are the two accumulators (R129). -/
def Engine.Twinned (e : Engine) : Prop := e.sk = e.sv ∧ e.accumKey = e.accumIv

theorem Engine.twinned_keyed (key : List Byte) : (Engine.keyed key key).Twinned := by simp [Engine.Twinned]

/-- The update step does the same to both tables, and to both accumulators (R129). -/
theorem Engine.Twinned.advance {e : Engine} (h : e.Twinned) : e.advance.Twinned := by
  obtain ⟨htables, haccums⟩ := h
  simp [Engine.Twinned, htables, haccums]

/-! Many update steps. -/

theorem Engine.cursor_iterate_advance (e : Engine) (n : Nat) :
    (Engine.advance^[n] e).cursor = e.cursor + BitVec.ofNat 8 n := by
  induction n with
  | zero => exact (BitVec.add_zero _).symm
  | succ n ih =>
    rw [Function.iterate_succ_apply', Engine.advance_cursor, ih, BitVec.add_assoc, BitVec.ofNat_add]
    rfl

@[simp] theorem Engine.lifecycle_iterate_advance (e : Engine) (n : Nat) :
    (Engine.advance^[n] e).lifecycle = e.lifecycle :=
  Function.Iterate.rec (fun f : Engine => f.lifecycle = e.lifecycle) (f := Engine.advance) rfl (fun _ h => h) n

end Sys2Proof.Machine
end

section
/-! PROOFS. The keystream by position, and runs that open with an INIT or a WIPE and go on with XFORMs (R127, R131). -/

namespace Sys2Proof.Safety

open Sys2Proof.Machine

/-! The output of XFORMs from one engine. -/

/-- The output bytes of the XFORMs of `D` out of UNINIT (R126). -/
def outputs (e : Engine) (D : List Byte) : List Byte := D.zipWith (· ^^^ ·) (keystreamBytes e D.length)

@[simp] theorem length_outputs (e : Engine) (D : List Byte) : (outputs e D).length = D.length := by simp [outputs]

theorem outputs_cons (e : Engine) (d : Byte) (D : List Byte) :
    outputs e (d :: D) = (d ^^^ e.advance.keystream) :: outputs e.advance D := rfl

/-- The n-th output byte is the n-th input byte XOR the keystream byte of the n-th update step (R126, R127). -/
theorem outputs_eq_mapIdx (e : Engine) (D : List Byte) :
    outputs e D = D.mapIdx fun n d => d ^^^ (Engine.advance^[n + 1] e).keystream := by
  induction D generalizing e with
  | nil => rfl
  | cons d D ih =>
    rw [List.mapIdx_cons, outputs_cons, ih]
    rfl

/-- XOR with the same keystream twice gives the input back (R127). -/
theorem outputs_outputs (e : Engine) (D : List Byte) : outputs e (outputs e D) = D := by
  induction D generalizing e with
  | nil => rfl
  | cons d D ih => rw [outputs_cons, outputs_cons, ih, BitVec.xor_assoc, BitVec.xor_self, BitVec.xor_zero]

/-- From zero tables XFORMs give their input back (R131). -/
theorem outputs_of_zeroed {e : Engine} (h : e.Zeroed) (D : List Byte) : outputs e D = D := by
  induction D generalizing e with
  | nil => rfl
  | cons d D ih =>
    rw [outputs_cons, ih h.advance, h.advance.keystream]
    exact congrArg (· :: D) BitVec.xor_zero

/-- A run of XFORMs is a contract violation where there is one and it runs in WIPED (R30, R131). -/
theorem foldl_xformed_contractViolation (D : List Byte) (s : State) :
    (D.foldl xformed s).contractViolation = (s.contractViolation || (s.engine.lifecycle == .wiped && !D.isEmpty)) := by
  induction D generalizing s with
  | nil => simp
  | cons d D ih =>
    rw [List.foldl_cons, ih]
    cases D <;> simp [xformed, answered]

/-! Runs. -/

/-- The machine, its host done, after a command that answered `[00]` and the XFORMs of `D`, every response read. -/
def opened (s : State) (e : Engine) (D : List Byte) : State := withHost (D.foldl xformed (answered s e false .ok)) []

@[simp] theorem opened_engine (s : State) (e : Engine) (D : List Byte) :
    (opened s e D).engine = Engine.advance^[D.length] e := foldl_xformed_engine D _

@[simp] theorem opened_contractViolation (s : State) (e : Engine) (D : List Byte) :
    (opened s e D).contractViolation = (s.contractViolation || (e.lifecycle == .wiped && !D.isEmpty)) := by
  refine (foldl_xformed_contractViolation D _).trans ?_
  simp [answered]

theorem opened_observed (s : State) (e : Engine) (D : List Byte) :
    (opened s e D).observed = s.observed ++ [0x00] :: dataFrames (outputs e D) := by
  refine (foldl_xformed_observed D _).trans ?_
  simp [encodeResp, outputs]

/-- A command that answers `[00]` and leaves UNINIT, and then XFORMs, run to their end in three steps each (R58). -/
theorem runsTo_opened {s : State} {i : Instr} {e : Engine} (hi : i.wf = true) (hs : waiting s)
    (h : CommandEffect s.engine i e false .ok) (hu : e.lifecycle ≠ .uninit) (D : List Byte) :
    runsTo (3 * (D.length + 1)) (withProgram s (i :: D.map .xform) []) (opened s e D) := by
  rw [Nat.mul_succ, Nat.add_comm]
  have hopen := runsTo_answered hi hs h (hostProgram (D.map .xform) ++ [])
  exact runsTo_add hopen (runsTo_xforms (s := answered s e false .ok) D (waiting_answered hs h) hu [])

theorem runsTo_opened_init {s : State} {key iv : List Byte} (hok : lengthsOk key iv) (hs : waiting s) (D : List Byte) :
    runsTo (3 * (D.length + 1)) (withProgram s (.init key iv :: D.map .xform) []) (opened s (Engine.keyed key iv) D) := by
  obtain ⟨hk, hv⟩ := hok
  have hfits : 256 ≤ Config.lenFieldMax := by decide
  exact runsTo_opened (wf_init_iff.2 ⟨hk.2.trans hfits, hv.2.trans hfits⟩) hs (.initOk key iv hk hv) (by simp) D

theorem runsTo_opened_wipe {s : State} (hs : waiting s) (D : List Byte) :
    runsTo (3 * (D.length + 1)) (withProgram s (.wipe :: D.map .xform) []) (opened s Engine.wiped D) :=
  runsTo_opened rfl hs .wipe (by simp) D

end Sys2Proof.Safety
end

section
/-! PROOFS. The TRANSFORM wrapper (R135): what it issues, and the run of any command sequence that it or a plain host
presents. -/

namespace Sys2Proof.Safety

open Sys2Proof.Machine

/-- On an idle machine the wrapper's call is one step, whatever the capacity. -/
theorem step_transform {s : State} (h : idle s) (x : List Byte) (c : Nat) (after : List HostAction) :
    step (withHost s (.transform x c :: after)) = .next ((withHost s after).hostTransform x c) := by
  rw [step_idle (s := withHost s (.transform x c :: after)) h.1, hostTurn_cons rfl]
  rfl

theorem step_transform_of_le {s : State} (h : idle s) {x : List Byte} {c : Nat} (hc : x.length ≤ c)
    (after : List HostAction) :
    step (withHost s (.transform x c :: after)) = .next (withProgram s (x.map .xform) after) := by
  rw [step_transform h, State.hostTransform, if_pos hc]
  rfl

theorem step_transform_of_lt {s : State} (h : idle s) {x : List Byte} {c : Nat} (hc : c < x.length)
    (after : List HostAction) :
    step (withHost s (.transform x c :: after)) = .next { withHost s after with hostFault := true } := by
  rw [step_transform h, State.hostTransform, if_neg (Nat.not_le.2 hc)]
  rfl

/-- Commands a frame can carry run from a waiting machine to a waiting machine, the same one whatever the host does
afterwards (R58, R201). -/
theorem exists_runsTo_commands {is : List Instr} (hwf : ∀ i ∈ is, i.wf = true) {s : State} (hs : waiting s) :
    ∃ t, waiting t ∧ ∀ after, runsTo (3 * is.length) (withProgram s is after) (withHost t after) := by
  induction is generalizing s with
  | nil => exact ⟨s, hs, fun _ => runsTo_zero _⟩
  | cons i is ih =>
    obtain ⟨hi, his⟩ := List.forall_mem_cons.1 hwf
    obtain ⟨e, v, r, heff, -⟩ := exec_of_legal i hs.2
    obtain ⟨t, ht, hrun⟩ := ih his (waiting_answered hs heff)
    refine ⟨t, ht, fun after => ?_⟩
    rw [List.length_cons, Nat.mul_succ, Nat.add_comm]
    exact runsTo_add (runsTo_answered hi hs heff (hostProgram is ++ after)) (hrun after)

/-- XFORMs run from any waiting machine, UNINIT included. -/
theorem exists_runsTo_xforms (x : List Byte) {s : State} (hs : waiting s) :
    ∃ t, waiting t ∧ ∀ after, runsTo (3 * x.length) (withProgram s (x.map .xform) after) (withHost t after) := by
  have hwf : ∀ i ∈ x.map Instr.xform, i.wf = true := List.forall_mem_map.2 fun _ _ => rfl
  simpa using exists_runsTo_commands hwf hs

/-- Two command sequences end to end are the first with the second as what the host does afterwards. -/
theorem withProgram_append (s : State) (is js : List Instr) (after : List HostAction) :
    withProgram s (is ++ js) after = withProgram s is (hostProgram js ++ after) := by
  rw [withProgram, withProgram, hostProgram, List.flatMap_append, List.append_assoc]
  rfl

end Sys2Proof.Safety
end

section
/-! PROOFS. The statements about XFORM (41_xform.md), settled. -/

namespace Sys2Proof.Safety

open Sys2Proof.Machine

/-- Settles O19: the state an XFORM leaves is the update step's, its tables read through the law of the swap. -/
theorem xformRunsOneUpdateStep : Obligations.XformRunsOneUpdateStep := by
  intro d s hl hcan
  obtain ⟨hk, hv⟩ := tablesCanonical_iff.1 hcan
  exact ⟨_, exec_xform_runs d hl, rfl, rfl, rfl,
    Memory.read_swap_left hk _ _, Memory.read_swap_right hk _ _, fun _ => Memory.read_swap_of_ne hk,
    Memory.read_swap_left hv _ _, Memory.read_swap_right hv _ _, fun _ => Memory.read_swap_of_ne hv,
    rfl, rfl, rfl, rfl⟩

/-- Settles O20: on zero tables the update step moves the cursor alone, and its keystream byte is zero. -/
theorem xformAfterWipeReturnsItsInput : Obligations.XformAfterWipeReturnsItsInput := by
  intro d s hl hsk hsv haK haI
  have hz : s.engine.Zeroed := ⟨hsk, hsv, haK, haI⟩
  rw [exec_xform_runs d (.inr hl), hz.advance.keystream, hz.advance_eq]
  simp [State.effect, encodeResp, hl]

/-- Settles O33: the keystream's n-th byte is that of the n-th update step from the engine INIT leaves. -/
theorem keystreamIsAFunctionOfPosition : Obligations.KeystreamIsAFunctionOfPosition := by
  intro key iv hok
  refine ⟨fun n => (Engine.advance^[n] (Engine.keyed key iv)).keystream, fun D s hs => ?_⟩
  exact ⟨_, runsTo_opened_init hok hs D, by rw [opened_observed, outputs_eq_mapIdx]⟩

/-- Settles O34: both runs XOR the same keystream. -/
theorem transformIsSelfInverse : Obligations.TransformIsSelfInverse := by
  intro key iv P s s' hok hs hs'
  have hback := runsTo_opened_init hok hs' (outputs (Engine.keyed key iv) P)
  have hobs := opened_observed s' (Engine.keyed key iv) (outputs (Engine.keyed key iv) P)
  rw [length_outputs] at hback
  rw [outputs_outputs] at hobs
  exact ⟨_, _, _, length_outputs _ P, runsTo_opened_init hok hs P, opened_observed s _ P, hback, hobs⟩

/-- Settles O35: the wrapper only puts the XFORMs of its input before what the host does next, and XFORMs end to end
run as one sequence. -/
theorem chunkedTransformIsTheSame : Obligations.ChunkedTransformIsTheSame := by
  refine ⟨fun x c after s h hc => step_transform_of_le h hc after, fun x y cx cy c s hs hx hy hc => ?_⟩
  obtain ⟨t, ht, hrunX⟩ := exists_runsTo_xforms x hs
  obtain ⟨u, -, hrunY⟩ := exists_runsTo_xforms y ht
  have hplain : runsTo (3 * (x ++ y).length) (withProgram s ((x ++ y).map .xform) []) (withHost u []) := by
    rw [List.length_append, Nat.mul_add, List.map_append, withProgram_append]
    exact runsTo_add (hrunX _) (hrunY [])
  refine ⟨withHost u [], hplain, ?_, runsTo_add (t := withHost t [.transform y cy]) ?_ ?_⟩
  · rw [Nat.add_comm]
    exact runsTo_succ (step_transform_of_le hs.1 (by rwa [List.length_append]) []) hplain
  · rw [Nat.add_comm]
    exact runsTo_succ (step_transform_of_le hs.1 hx _) (hrunX _)
  · rw [Nat.add_comm]
    exact runsTo_succ (step_transform_of_le ht.1 hy []) (hrunY [])

/-- Settles O37: INIT leaves the cursor at 0, and each update step adds one to it. -/
theorem cursorCountsBytesAfterInit : Obligations.CursorCountsBytesAfterInit := by
  intro key iv D s hok hs
  refine ⟨_, runsTo_opened_init hok hs D, ?_⟩
  rw [opened_engine, Engine.cursor_iterate_advance, Engine.keyed_cursor]
  simp

/-- Settles O38: INIT with key = iv leaves equal tables and accumulators, and every update step keeps them so. -/
theorem equalKeyAndIvKeepTablesEqual : Obligations.EqualKeyAndIvKeepTablesEqual := by
  intro key D s hok hs
  refine ⟨_, runsTo_opened_init hok hs D, ?_⟩
  rw [opened_engine]
  exact Function.Iterate.rec Engine.Twinned (Engine.twinned_keyed key) (fun _ => Engine.Twinned.advance) D.length

/-- Settles O39: WIPE leaves zero tables, whose keystream is zero, and every XFORM after it runs in WIPED. -/
theorem wipedStreamReturnsItsInput : Obligations.WipedStreamReturnsItsInput := by
  intro D s hs
  refine ⟨_, runsTo_opened_wipe hs D, ?_, ?_, ?_⟩
  · rw [opened_observed, outputs_of_zeroed Engine.zeroed_wiped]
  · rw [opened_engine, Engine.lifecycle_iterate_advance, Engine.wiped_lifecycle]
  · rw [opened_contractViolation, Engine.wiped_lifecycle, beq_self_eq_true, Bool.true_and]

/-- Settles O18: the effect of an XFORM in UNINIT, and the one effect with that status. -/
theorem xformNotReadyInUninit : Obligations.XformNotReadyInUninit := by
  refine ⟨fun d s hu => ?_, fun i s t payload h hr => ?_⟩
  · rw [exec_of_effect (by simp [hu]) (.xformNotReady d hu)]
    simp [State.effect, encodeResp]
  · obtain ⟨-, e, v, r, heff, rfl⟩ := exec_next h
    exact heff.of_notReady_status (List.append_cancel_left hr)

/-- Settles O21: one engine, one ghost flag and one keystream byte serve every input. -/
theorem xformStateIgnoresItsInput : Obligations.XformStateIgnoresItsInput := fun s hl =>
  ⟨s.effect s.engine.advance (s.engine.lifecycle == .wiped) .ok, s.engine.advance.keystream,
    fun d => exec_xform_runs d hl⟩

/-- Settles O22: each index is a rotation, whose inverse is the other index. -/
theorem scrambledIndicesAreRotations : Obligations.ScrambledIndicesAreRotations :=
  ⟨fun c => ⟨rfl, scrambleKey_eq_or c, rfl, scrambleKey_eq_rotateLeft c⟩,
    fun c => ⟨rfl, scrambleIv_eq_or c, rfl, scrambleIv_eq_rotateLeft c⟩,
    fun c => ⟨shiftLeft_and_ushiftRight_eq_zero c rfl, shiftLeft_and_ushiftRight_eq_zero c rfl⟩,
    scrambleKey_bijective, scrambleIv_bijective, scrambleKey_eq_scrambleIv_iff⟩

/-- Settles O36: with too small a capacity the wrapper's step only records the host fault. -/
theorem shortOutputBufferIsAHostFault : Obligations.ShortOutputBufferIsAHostFault :=
  fun _ _ after _ h hc => step_transform_of_lt h hc after

end Sys2Proof.Safety
end

section
/-! PROOFS. What WIPE leaves (R150 to R154), and that the run of a command sequence depends on nothing of the machine but
its engine (R58, R156). -/

namespace Sys2Proof.Safety

open Sys2Proof.Machine

/-- At a legal LIFECYCLE, WIPE completes with `[00]` and leaves the wipe values (R150). -/
theorem exec_wipe {s : State} (h : s.engine.lifecycle ≠ .reserved) :
    exec .wipe s = .next (s.effect Engine.wiped false .ok) := exec_of_effect h .wipe

/-- The engine after a WIPE is one and the same (R154). -/
theorem exec_wipe_engine {s t : State} (h : exec .wipe s = .next t) : t.engine = Engine.wiped := by
  obtain ⟨-, e, v, r, hc, rfl⟩ := exec_next h
  cases hc
  rfl

/-- An XFORM right after WIPE takes the cursor around to 0x00 (R121, R153). -/
theorem exec_xform_cursor_of_wiped {d : Byte} {s t : State} (hs : s.engine = Engine.wiped)
    (h : exec (.xform d) s = .next t) : t.engine.cursor = 0x00 := by
  rw [exec_xform_runs d (.inr (by rw [hs, Engine.wiped_lifecycle])), Host.Outcome.next.injEq] at h
  rw [← h, State.effect_engine, Engine.advance_cursor, hs, Engine.wiped_cursor]
  rfl

/-- Every command has an effect on a legal engine, no matter which machine holds it. -/
theorem exists_effect (i : Instr) {e : Engine} (h : e.lifecycle ≠ .reserved) : ∃ e' v r, CommandEffect e i e' v r := by
  obtain ⟨e', v, r, hc, -⟩ := exec_of_legal (s := State.reset.withEngine e) i h
  exact ⟨e', v, r, hc⟩

/-- From a legal engine the responses to a command sequence and the engine it ends in are fixed, whatever else the
waiting machine holds. -/
theorem exists_responses_of_engine {is : List Instr} (hwf : ∀ i ∈ is, i.wf = true) {e : Engine}
    (he : e.lifecycle ≠ .reserved) :
    ∃ (e' : Engine) (frames : List (List Byte)), ∀ s : State, waiting s → s.engine = e →
      ∃ t : State, runsTo (3 * is.length) (withProgram s is []) t ∧ t.observed = s.observed ++ frames ∧ t.engine = e' := by
  induction is generalizing e with
  | nil => exact ⟨e, [], fun s _ hs => ⟨withHost s [], runsTo_zero _, (List.append_nil _).symm, hs⟩⟩
  | cons i is ih =>
    obtain ⟨hi, his⟩ := List.forall_mem_cons.1 hwf
    obtain ⟨e₁, v, r, heff⟩ := exists_effect i he
    obtain ⟨e', frames, hrest⟩ := ih his (effect_lifecycle_ne_reserved heff he)
    refine ⟨e', encodeResp r :: frames, ?_⟩
    rintro s hs rfl
    obtain ⟨t, hrun, hobs, hengine⟩ := hrest (answered s e₁ v r) (waiting_answered hs heff) rfl
    have hfirst := runsTo_answered hi hs heff (hostProgram is ++ [])
    refine ⟨t, ?_, by simp [hobs], hengine⟩
    rw [List.length_cons, Nat.mul_succ, Nat.add_comm]
    exact runsTo_add hfirst hrun

/-- The same with a WIPE before the sequence, from any waiting machine: the WIPE makes the engine one (R156). -/
theorem exists_responses_after_wipe {is : List Instr} (hwf : ∀ i ∈ is, i.wf = true) :
    ∃ (e' : Engine) (frames : List (List Byte)), ∀ s : State, waiting s →
      ∃ t : State, runsTo (3 * (is.length + 1)) (withProgram s (.wipe :: is) []) t ∧
        t.observed = s.observed ++ frames ∧ t.engine = e' := by
  obtain ⟨e', frames, hrest⟩ := exists_responses_of_engine hwf (e := Engine.wiped) (by simp)
  refine ⟨e', [0x00] :: frames, fun s hs => ?_⟩
  obtain ⟨t, hrun, hobs, hengine⟩ := hrest (answered s Engine.wiped false .ok) (waiting_answered hs .wipe) rfl
  have hwipe := runsTo_answered (i := .wipe) rfl hs .wipe (hostProgram is ++ [])
  refine ⟨t, ?_, by simp [hobs, encodeResp], hengine⟩
  rw [Nat.mul_succ, Nat.add_comm]
  exact runsTo_add hwipe hrun

end Sys2Proof.Safety
end

section
/-! PROOFS. The statements about WIPE (42_wipe.md), settled. -/

namespace Sys2Proof.Safety

open Sys2Proof.Machine

/-- Settles O24: every WIPE leaves the one wiped engine, whose cursor the XFORM between two of them takes around to
0x00. -/
theorem wipeForgetsWhatWasBefore : Obligations.WipeForgetsWhatWasBefore := by
  intro s t u ht
  have hwiped := exec_wipe_engine ht
  have hsame : ∀ s' : State, exec .wipe s' = .next u → u.engine = t.engine :=
    fun s' hu => (exec_wipe_engine hu).trans hwiped.symm
  refine ⟨hsame t, fun d v hv hu => ⟨exec_xform_cursor_of_wiped hwiped hv, ?_, hsame v hu⟩, hsame⟩
  rw [exec_wipe_engine hu, Engine.wiped_cursor]

/-- Settles O40: the responses and the last engine of a run that begins with WIPE serve every waiting machine. -/
theorem wipeErasesEveryEarlierSecret : Obligations.WipeErasesEveryEarlierSecret := by
  intro is s s' hwf hs hs'
  obtain ⟨e', frames, h⟩ := exists_responses_after_wipe hwf
  obtain ⟨t, hrun, hobs, hengine⟩ := h s hs
  obtain ⟨t', hrun', hobs', hengine'⟩ := h s' hs'
  exact ⟨t, t', frames, hrun, hrun', hobs, hobs', hengine.trans hengine'.symm⟩

/-- Settles O23: the effect of WIPE, and its zero tables read entry by entry. -/
theorem wipeLeavesTheWipeValues : Obligations.WipeLeavesTheWipeValues := by
  intro s hl
  refine ⟨_, exec_wipe hl, fun p => ?_, tablesCanonical_wiped, rfl, rfl, rfl, rfl, ?_⟩
  · simp
  · simp [State.effect, encodeResp]

end Sys2Proof.Safety
end

section
/-! PROOFS. What an error response says (60_exceptions.md R160 to R166): its status byte names the command and the
condition that raised it, and nothing but the response port has changed. -/

namespace Sys2Proof.Safety

open Sys2Proof.Machine

/-- The one condition behind each error status (R161 to R164). -/
def errorCondition (e : Engine) (i : Instr) (st : Byte) : Prop :=
  (st = 0x01 ∧ ∃ key iv, i = .init key iv ∧ (key.length < 1 ∨ 256 < key.length)) ∨
  (st = 0x02 ∧ ∃ key iv, i = .init key iv ∧ (1 ≤ key.length ∧ key.length ≤ 256) ∧ (iv.length < 1 ∨ 256 < iv.length)) ∨
  (st = 0x03 ∧ (∃ d, i = .xform d) ∧ e.lifecycle = .uninit) ∨
  (st = 0x04 ∧ ∃ op, i = .reserved op)

theorem errorCondition_invalidKeySize {e : Engine} {i : Instr} :
    errorCondition e i 0x01 ↔ ∃ key iv, i = .init key iv ∧ (key.length < 1 ∨ 256 < key.length) := by
  simp [errorCondition]

theorem errorCondition_invalidIvSize {e : Engine} {i : Instr} :
    errorCondition e i 0x02 ↔
      ∃ key iv, i = .init key iv ∧ (1 ≤ key.length ∧ key.length ≤ 256) ∧ (iv.length < 1 ∨ 256 < iv.length) := by
  simp [errorCondition]

theorem errorCondition_illegalCommand {e : Engine} {i : Instr} :
    errorCondition e i 0x04 ↔ ∃ op, i = .reserved op := by
  simp [errorCondition]

/-- An effect that answers with an error is the one its status names, and it leaves the engine and the ghost flag alone
(R166). -/
theorem effect_of_error_status {e e' : Engine} {i : Instr} {v : Bool} {r : Resp} {st : Byte} {payload : List Byte}
    (h : CommandEffect e i e' v r) (hr : encodeResp r = st :: payload) (hst : st ≠ 0x00) :
    e' = e ∧ v = false ∧ errorCondition e i st := by
  cases h with cases hr
  | initBadKey key iv hk => exact ⟨rfl, rfl, .inl ⟨rfl, key, iv, rfl, by omega⟩⟩
  | initBadIv key iv hk hv => exact ⟨rfl, rfl, .inr (.inl ⟨rfl, key, iv, rfl, hk, by omega⟩)⟩
  | xformNotReady d hu => exact ⟨rfl, rfl, .inr (.inr (.inl ⟨rfl, ⟨d, rfl⟩, hu⟩))⟩
  | reserved op => exact ⟨rfl, rfl, .inr (.inr (.inr ⟨rfl, op, rfl⟩))⟩
  | initOk | xformRuns | wipe => exact absurd rfl hst

/-- The same of a command that completes: an error in its response means that only the response port has changed. -/
theorem exec_next_of_error_status {i : Instr} {s t : State} {st : Byte} {payload : List Byte} (h : exec i s = .next t)
    (hr : t.respPort = s.respPort ++ st :: payload) (hst : st ≠ 0x00) :
    t = { s with respPort := t.respPort } ∧ errorCondition s.engine i st := by
  obtain ⟨-, e, v, r, heff, rfl⟩ := exec_next h
  obtain ⟨rfl, rfl, hcond⟩ := effect_of_error_status heff (List.append_cancel_left hr) hst
  rw [← State.respond_eq_effect]
  exact ⟨rfl, hcond⟩

/-- A command whose effect leaves the engine and the ghost flag alone does no more than respond (R12). -/
theorem exec_eq_respond {i : Instr} {s : State} {r : Resp} (hl : s.engine.lifecycle ≠ .reserved)
    (h : CommandEffect s.engine i s.engine false r) : exec i s = .next (s.respond r) := by
  rw [exec_of_effect hl h, State.respond_eq_effect]

end Sys2Proof.Safety
end

section
/-! PROOFS. The statements about the error responses (60_exceptions.md), settled. -/

namespace Sys2Proof.Safety

open Sys2Proof.Machine

/-- Settles O11: INIT's effect at such a key length, and the one condition behind status 01. -/
theorem initRejectsKeyLength : Obligations.InitRejectsKeyLength := by
  refine ⟨fun key iv s hl hk16 hk => ?_, fun i s t payload h hr => ?_⟩
  · obtain ⟨lo, hi, hframe, hn⟩ := exists_report_length hk16 0x01
    refine ⟨lo, hi, hn, ?_⟩
    rw [exec_eq_respond hl (.initBadKey key iv (by omega)), ← hframe]
    rfl
  · exact errorCondition_invalidKeySize.1 (exec_next_of_error_status h hr (by decide)).2

/-- Settles O12: INIT's effect at such lengths, and the one condition behind status 02. -/
theorem initRejectsIvLength : Obligations.InitRejectsIvLength := by
  refine ⟨fun key iv s hl hv16 hk hv => ?_, fun i s t payload h hr => ?_⟩
  · obtain ⟨lo, hi, hframe, hn⟩ := exists_report_length hv16 0x02
    refine ⟨lo, hi, hn, ?_⟩
    rw [exec_eq_respond hl (.initBadIv key iv hk (by omega)), ← hframe]
    rfl
  · exact errorCondition_invalidIvSize.1 (exec_next_of_error_status h hr (by decide)).2

/-- Settles O29: every effect that answers with an error leaves the engine and the ghost flag as they were. -/
theorem errorResponsesArePrecise : Obligations.ErrorResponsesArePrecise :=
  fun _ _ _ _ _ h hr hst => (exec_next_of_error_status h hr hst).1

/-- Settles O25: the decoder's last branch, the effect of a reserved command, and the one condition behind status 04. -/
theorem reservedOpcodeChangesNothing : Obligations.ReservedOpcodeChangesNothing :=
  ⟨fun _ bs h1 h2 h3 => decodeFrame_reserved (isReservedOpcode_iff.2 ⟨h1, h2, h3⟩) bs,
    fun op _ hl => exec_eq_respond hl (.reserved op),
    fun _ _ _ _ h hr => errorCondition_illegalCommand.1 (exec_next_of_error_status h hr (by decide)).2⟩

end Sys2Proof.Safety
end

section
/-! PROOFS. The host's turn where no command runs: a reset (R190, R191), and the reads of a finished run (R205). -/

namespace Sys2Proof.Machine

variable {s : State}

@[simp] theorem State.hostTake_frameBuf (s : State) : s.hostTake.frameBuf = s.frameBuf := by
  by_cases h : s.respPort = [] <;> simp [State.hostTake, h]
@[simp] theorem State.hostTake_host (s : State) : s.hostTake.host = s.host := by
  by_cases h : s.respPort = [] <;> simp [State.hostTake, h]

/-- The host has its turn where its reset comes first, where a response is unread, and where no whole frame waits. -/
theorem exists_step_eq_hostTurn
    (h : s.resetPreempts = true ∨ s.respPort ≠ [] ∨ ∃ e, decodeFrame s.frameBuf = .error e) :
    ∃ o, step s = hostTurn o s := by
  by_cases hp : s.resetPreempts = true
  · exact ⟨_, if_pos hp⟩
  · have hp' : s.resetPreempts = false := Bool.eq_false_iff.2 hp
    by_cases hr : s.respPort = []
    · obtain ⟨e, hd⟩ := (h.resolve_left hp).resolve_left (not_not_intro hr)
      cases e with
      | empty => exact ⟨_, step_idle (eq_nil_of_decodeFrame_empty hd)⟩
      | incomplete => exact ⟨_, step_incomplete hp' hr hd⟩
    · exact ⟨_, step_unread hp' hr⟩

/-- A reset that lands leaves the reset engine and empty ports, and the rest of the host's actions (R190). -/
theorem step_reset {preempt : Bool} {after : List HostAction} (hh : s.host = .reset preempt :: after)
    (h : preempt = true ∨ s.respPort ≠ [] ∨ ∃ e, decodeFrame s.frameBuf = .error e) :
    step s = .next { s with engine := Engine.reset, frameBuf := [], respPort := [], host := after } := by
  obtain ⟨o, ho⟩ := exists_step_eq_hostTurn (h.imp_left fun hp => by simp [State.resetPreempts, hh, hp])
  rw [ho, hostTurn_cons hh]
  rfl

end Sys2Proof.Machine
end

section
/-! PROOFS. What a run shows after a command sequence (R205): the observation moves as the machine over functions says,
command by command. -/

namespace Sys2Proof.Safety

open Sys2Proof.Machine

namespace AbsEngine

theorem answers_append (e : AbsEngine) (is js : List Instr) :
    e.answers (is ++ js) = e.answers is ++ (e.afterAll is).answers js := by
  induction is generalizing e with
  | nil => rfl
  | cons i is ih => simp [answers, afterAll, ih]

theorem afterAll_append (e : AbsEngine) (is js : List Instr) : e.afterAll (is ++ js) = (e.afterAll is).afterAll js := by
  induction is generalizing e with
  | nil => rfl
  | cons i is ih => exact ih (e.after i)

theorem violatesAny_append (e : AbsEngine) (is js : List Instr) :
    e.violatesAny (is ++ js) = (e.violatesAny is || (e.afterAll is).violatesAny js) := by
  induction is generalizing e with
  | nil => rfl
  | cons i is ih => simp [violatesAny, afterAll, ih, Bool.or_assoc]

end AbsEngine

/-- A command's ghost flag is that of the machine over functions (R30, R131). -/
theorem effect_violates {e e' : Engine} {i : Instr} {v : Bool} {r : Resp} (h : CommandEffect e i e' v r) :
    v = (absEngine e).violates i := by
  cases h with
  | xformNotReady d hu => simp [AbsEngine.violates, absEngine, hu]
  | _ => rfl

/-- The observation `o'` is `o` after the commands `is`, as the machine over functions gives it (R205); the tables are in
their canonical form, without which the next command would not refine that machine. -/
structure Answers (o : Observation) (is : List Instr) (o' : Observation) : Prop where
  canonical : tablesCanonical o'.engine = true
  responses : o'.responses = o.responses ++ ((absEngine o.engine).answers is).map encodeResp
  engine : absEngine o'.engine = (absEngine o.engine).afterAll is
  contractViolation : o'.contractViolation = (o.contractViolation || (absEngine o.engine).violatesAny is)
  hostFault : o'.hostFault = o.hostFault

theorem Answers.refl {o : Observation} (h : tablesCanonical o.engine = true) : Answers o [] o :=
  ⟨h, (List.append_nil _).symm, rfl, (Bool.or_false _).symm, rfl⟩

theorem Answers.trans {o o' o'' : Observation} {is js : List Instr} (h : Answers o is o') (h' : Answers o' js o'') :
    Answers o (is ++ js) o'' where
  canonical := h'.canonical
  responses := by
    rw [h'.responses, h.responses, h.engine, AbsEngine.answers_append, List.map_append, List.append_assoc]
  engine := by rw [h'.engine, h.engine, AbsEngine.afterAll_append]
  contractViolation := by
    rw [h'.contractViolation, h.contractViolation, h.engine, AbsEngine.violatesAny_append, Bool.or_assoc]
  hostFault := h'.hostFault.trans h.hostFault

section Commands

variable {s : State} {e : Engine} {i : Instr} {v : Bool} {r : Resp}

/-- A response shows the same whether it waits on the port or the host has read it (R205). -/
theorem observation_effect_of_idle (h : s.respPort = []) :
    observation (s.effect e v r) = observation (answered s e v r) := by
  simp [observation, unreadFrames, State.effect, answered, h]

theorem answers_answered (h : s.respPort = []) (hcan : tablesCanonical s.engine = true)
    (heff : CommandEffect s.engine i e v r) : Answers (observation s) [i] (observation (answered s e v r)) := by
  obtain ⟨hengine, hr⟩ := effect_refines hcan heff
  have hidle : (answered s e v r).respPort = [] := h
  refine ⟨tablesCanonical_of_effect heff hcan, ?_, hengine, ?_, rfl⟩
  · rw [observation_responses_of_idle hidle, observation_responses_of_idle h, answered_observed, hr]
    rfl
  · rw [effect_violates heff]
    exact congrArg (s.contractViolation || ·) (Bool.or_false _).symm

/-- Sent but not read back, a command takes two steps, and its response waits. -/
theorem runsTo_effect (hi : i.wf = true) (hs : waiting s) (heff : CommandEffect s.engine i e v r) :
    runsTo 2 (withHost s [.send (encode i)]) ((withHost s []).effect e v r) := by
  obtain ⟨hidle, hl⟩ := hs
  have hsend := step_send_of_idle (s := withHost s [.send (encode i)]) hidle rfl
  have hrun := (step_received_frame (s := withHost s []) hi hidle rfl).trans
    (exec_of_effect (s := withHost s []) hl heff)
  exact runsTo_succ hsend (runsTo_succ hrun (runsTo_zero _))

/-- A command sequence runs to a waiting machine that shows its responses and its final state (R58, R205). -/
theorem exists_runsTo_answers {is : List Instr} (hwf : ∀ i ∈ is, i.wf = true) (hs : waiting s)
    (hcan : tablesCanonical s.engine = true) :
    ∃ t, waiting t ∧ Answers (observation s) is (observation t) ∧
      ∀ after, runsTo (3 * is.length) (withProgram s is after) (withHost t after) := by
  induction is generalizing s with
  | nil => exact ⟨s, hs, .refl hcan, fun _ => runsTo_zero _⟩
  | cons i is ih =>
    obtain ⟨hi, his⟩ := List.forall_mem_cons.1 hwf
    obtain ⟨e, v, r, heff, -⟩ := exec_of_legal i hs.2
    have hfirst := answers_answered hs.1.2 hcan heff
    obtain ⟨t, ht, hrest, hrun⟩ := ih his (waiting_answered hs heff) hfirst.canonical
    refine ⟨t, ht, hfirst.trans hrest, fun after => ?_⟩
    rw [List.length_cons, Nat.mul_succ, Nat.add_comm]
    exact runsTo_add (runsTo_answered hi hs heff (hostProgram is ++ after)) (hrun after)

end Commands

end Sys2Proof.Safety
end

section
/-! PROOFS. The statements about reset and the end of a run (70_reset_and_hazards.md), settled. -/

namespace Sys2Proof.Safety

open Sys2Proof.Machine

/-- Settles O53: nothing waits to be run, so a step is a read of the host or no move, and reading shows nothing new. -/
theorem finishedRunsStayFinished : Obligations.FinishedRunsStayFinished := by
  intro s hfin
  obtain ⟨hf, hall⟩ := finished_iff.1 hfin
  rw [step_idle hf]
  match hh : s.host with
  | [] => exact ⟨s, hostTurn_nil hh _, hfin, rfl, hh⟩
  | a :: rest =>
    rw [hh] at hall
    obtain ⟨rfl, hrest⟩ := List.forall_mem_cons.1 hall
    refine ⟨({ s with host := rest } : State).hostTake, hostTurn_cons hh _, finished_iff.2 ⟨?_, ?_⟩, ?_, ?_⟩
    · rw [State.hostTake_frameBuf]
      exact hf
    · rwa [State.hostTake_host]
    · exact observation_hostTake _
    · exact State.hostTake_host _

/-- Settles O54: all commands but the last run to a waiting machine; there the last one runs and its response waits, or
its cut frame decodes to no command. -/
theorem runIsFinishedWhenEveryFrameIsAnswered : Obligations.RunIsFinishedWhenEveryFrameIsAnswered := by
  intro is last s hwf hlast hs hcan
  obtain ⟨t, ht, hans, hrun⟩ := exists_runsTo_answers hwf hs hcan
  have hread := observation_responses_of_idle hs.1.2
  refine ⟨?_, fun n hpos hn => ?_⟩
  · obtain ⟨e, v, r, heff, -⟩ := exec_of_legal last ht.2
    have hall := hans.trans (answers_answered ht.1.2 hans.canonical heff)
    rw [← observation_effect_of_idle ht.1.2] at hall
    exact ⟨_, runsTo_add (hrun _) (runsTo_effect hlast ht heff), finished_iff.2 ⟨ht.1.1, nofun⟩,
      hread ▸ hall.responses, hall.engine, hall.contractViolation, hall.hostFault⟩
  · have hcut := cutFrameIsIncomplete last n hlast hpos hn
    have hsend := step_send_of_idle (s := withHost t [.send ((encode last).take n)]) ht.1 rfl
    refine ⟨_, runsTo_add (hrun _) (runsTo_succ hsend (runsTo_zero _)), Bool.eq_false_iff.2 fun hfin => ?_,
      step_incomplete rfl ht.1.2 hcut, hread ▸ hans.responses⟩
    have hnil : (encode last).take n = [] := (finished_iff.1 hfin).1
    rw [hnil] at hcut
    cases hcut

/-- Settles O45: a reset lands as the host's turn, and the reset tables read as zeros. -/
theorem resetSetsEveryPieceOfState : Obligations.ResetSetsEveryPieceOfState := fun _ _ _ hh h =>
  ⟨_, step_reset hh h, rfl, rfl, rfl, rfl, fun _ => ⟨rfl, rfl⟩, rfl, rfl, rfl⟩

end Sys2Proof.Safety
end

section
/-! PROOFS. The frame that a table word begins (R75): its bytes are the word's, and whatever decodes from it takes it
whole. -/

namespace Sys2Proof

variable {nbits w : Nat}

theorem wordFrameLength_init (h : wordByte nbits w 0 = 0x01) {kl vl : Nat}
    (hkl : ofLe16 (wordByte nbits w 1) (wordByte nbits w 2) = kl)
    (hvl : ofLe16 (wordByte nbits w (3 + kl)) (wordByte nbits w (4 + kl)) = vl) :
    wordFrameLength nbits w = 5 + kl + vl := by
  subst hkl hvl
  exact if_pos h

theorem wordFrameLength_xform (h : wordByte nbits w 0 = 0x02) : wordFrameLength nbits w = 2 := by
  simp [wordFrameLength, h]

theorem wordFrameLength_of_ne (h1 : wordByte nbits w 0 ≠ 0x01) (h2 : wordByte nbits w 0 ≠ 0x02) :
    wordFrameLength nbits w = 1 :=
  (if_neg h1).trans (if_neg h2)

theorem wordFrameLength_pos (nbits w : Nat) : 0 < wordFrameLength nbits w := by
  simp only [wordFrameLength]
  split_ifs <;> omega

@[simp] theorem length_wordFrame (nbits w : Nat) : (wordFrame nbits w).length = wordFrameLength nbits w := by
  simp [wordFrame]

theorem getD_wordFrame {p : Nat} (h : p < wordFrameLength nbits w) :
    (wordFrame nbits w).getD p 0 = wordByte nbits w p := by
  simp [wordFrame, h]

theorem exists_wordFrame_eq_cons (nbits w : Nat) : ∃ bs, wordFrame nbits w = wordByte nbits w 0 :: bs := by
  obtain ⟨n, hn⟩ := Nat.exists_eq_add_one.2 (wordFrameLength_pos nbits w)
  exact ⟨_, by rw [wordFrame, hn, List.range_succ_eq_map, List.map_cons]⟩

/-- The word's first byte is the opcode of whatever decodes from its frame (R71). -/
theorem wordByte_zero_of_decodeFrame {i : Instr} {rest : List Byte}
    (h : decodeFrame (wordFrame nbits w) = .ok (i, rest)) : wordByte nbits w 0 = i.opcode := by
  obtain ⟨bs, hbs⟩ := exists_wordFrame_eq_cons nbits w
  rw [hbs] at h
  exact decodeFrame_opcode h

/-- The frame of a word that decodes to an INIT holds both length fields, so their values are read from the word (R72). -/
theorem wordFrameLength_of_decodeFrame_init {key iv rest : List Byte}
    (h : decodeFrame (wordFrame nbits w) = .ok (.init key iv, rest)) :
    wordFrameLength nbits w = 5 + key.length + iv.length := by
  have h0 : wordByte nbits w 0 = 0x01 := wordByte_zero_of_decodeFrame h
  obtain ⟨-, hkey, -, hiv, -, -⟩ := Safety.initFrameFieldsAtTheirOffsets _ _ _ _ h
  have hlen := wordFrameLength_init h0 rfl rfl
  rw [getD_wordFrame (by omega), getD_wordFrame (by omega)] at hkey
  rw [show ofLe16 (wordByte nbits w 1) (wordByte nbits w 2) = key.length from hkey.symm] at hlen
  rw [getD_wordFrame (by omega), getD_wordFrame (by omega)] at hiv
  exact wordFrameLength_init h0 hkey.symm hiv.symm

/-- A word's frame is as long as the frame of the command it decodes to (R75). -/
theorem wordFrameLength_of_decodeFrame {i : Instr} {rest : List Byte}
    (h : decodeFrame (wordFrame nbits w) = .ok (i, rest)) : wordFrameLength nbits w = i.frameLength := by
  have h0 := wordByte_zero_of_decodeFrame h
  cases i with
  | init key iv => exact wordFrameLength_of_decodeFrame_init h
  | xform d => exact wordFrameLength_xform h0
  | wipe => exact wordFrameLength_of_ne (by rw [h0]; decide) (by rw [h0]; decide)
  | reserved op =>
    obtain ⟨h1, h2, -⟩ := isReservedOpcode_iff.1 (decodeFrame_ok h).1
    exact wordFrameLength_of_ne (h0 ▸ h1) (h0 ▸ h2)

theorem eq_nil_of_decodeFrame_wordFrame {i : Instr} {rest : List Byte}
    (h : decodeFrame (wordFrame nbits w) = .ok (i, rest)) : rest = [] := by
  have hlen := congrArg List.length (decodeFrame_ok h).2
  rw [length_wordFrame, wordFrameLength_of_decodeFrame h, List.length_append, (encode_head?_and_length i).2] at hlen
  exact List.length_eq_zero_iff.1 (by omega)

theorem decodeTableWord_eq_some_iff {i : Instr} :
    decodeTableWord nbits w = some i ↔ decodeFrame (wordFrame nbits w) = .ok (i, []) := by
  unfold decodeTableWord
  match h : decodeFrame (wordFrame nbits w) with
  | .ok (j, rest) => simp [eq_nil_of_decodeFrame_wordFrame h]
  | .error e => simp

end Sys2Proof
end

section
/-! PROOFS. A fetched word's host asserts no reset before the command (R191). -/

namespace Sys2Proof.Machine

@[simp] theorem State.withFetchWord_host (s : State) (nbits w : Nat) :
    (s.withFetchWord nbits w).host = s.host.dropWhile (· == .reset true) := rfl

theorem resetPreempts_withFetchWord (s : State) (nbits w : Nat) : (s.withFetchWord nbits w).resetPreempts = false := by
  refine resetPreempts_eq_false_iff.2 fun hh => ?_
  have hfirst := List.head?_dropWhile_not (· == .reset true) s.host
  rw [← State.withFetchWord_host s nbits w, hh] at hfirst
  cases hfirst

end Sys2Proof.Machine
end

section
/-! PROOFS. The statements about table words and written-out frames (30_encoding.md), settled. -/

namespace Sys2Proof.Safety

open Sys2Proof.Machine

/-- Settles O9: the word's frame decodes with nothing behind it, and no reset or unread response comes before it. -/
theorem fetchedWordRuns : Obligations.FetchedWordRuns := fun s nbits w _ h =>
  step_command (resetPreempts_withFetchWord s nbits w) rfl (decodeTableWord_eq_some_iff.1 h)

/-- Settles O8: each written-out frame is the encoding of its command, with the bytes after it. -/
theorem frameWordsDecode : Obligations.FrameWordsDecode :=
  ⟨decodeEncodeRoundTrip (.init [0x01, 0x02, 0x03] [0x04, 0x05, 0x06]) [] rfl,
    decodeEncodeRoundTrip (.init [] [0x55]) [] rfl, decodeFrame_xform _, decodeFrame_wipe _,
    decodeFrame_reserved rfl _⟩

end Sys2Proof.Safety
end
